-- ==== Sys2Proof/Config.lean ====
section
/-! DEFINITION. The implementation parameters of `00_scope.md` R5 and the offsets of `20_memory.md` R66.
The spec leaves no value of a command open (`93_implementation_defined.md` section 2), so there is no free
value here: no opaque constant. -/

namespace Sys2Proof.Config

/-- R5 `LIMB_BITS`. -/
@[simp] abbrev limbBits : Nat := 64
/-- R5 `W_LIMBS`. -/
@[simp] abbrev wLimbs : Nat := 4
/-- R5 `P_LIMBS`. -/
@[simp] abbrev pLimbs : Nat := 8
/-- R5 `DIGIT_BITS`. -/
@[simp] abbrev digitBits : Nat := 28
/-- R5 `SLOT_BYTES`. -/
@[simp] abbrev slotBytes : Nat := 32
/-- R5 `NW`: Word256 registers. -/
@[simp] abbrev nw : Nat := 8
/-- R5 `NM`: MPInt registers. -/
@[simp] abbrev nm : Nat := 4
/-- R5 `NP`: Word512 registers. -/
@[simp] abbrev np : Nat := 1
/-- R5 `MP_CAP`: digits of capacity of an MPInt register. -/
@[simp] abbrev mpCap : Nat := 10
/-- R5 `NSLOT`: slots of the slot buffer. -/
@[simp] abbrev nslot : Nat := 16
/-- R5 `CMD_BITS`: bits of a command word. -/
@[simp] abbrev cmdBits : Nat := 32
/-- R5 `SHAMT_BITS`: bits of the shift-amount immediate. -/
@[simp] abbrev shamtBits : Nat := 16
/-- The bytes of the slot buffer, `32 * NSLOT` (R39). -/
@[simp] abbrev sbBytes : Nat := 512
/-- `28 * MP_CAP`, the bit width MP_CAPACITY reports (R141, R260). -/
@[simp] abbrev capacityBits : Nat := 280
/-- The bit width NARROW_OVERFLOW reports (R226, R260). -/
@[simp] abbrev narrowBits : Nat := 256

/-- Offset of CMD in the host's window (R66). -/
@[simp] abbrev offCmd : Nat := 0x200
/-- Offset of STATUS (R66). -/
@[simp] abbrev offStatus : Nat := 0x204
/-- Offset of FCAUSE (R66). -/
@[simp] abbrev offFcause : Nat := 0x208
/-- Offset of FCMD (R66). -/
@[simp] abbrev offFcmd : Nat := 0x20C
/-- Offset of FINFO (R66). -/
@[simp] abbrev offFinfo : Nat := 0x210
/-- Offset of CTRL (R66). -/
@[simp] abbrev offCtrl : Nat := 0x214

end Sys2Proof.Config
end

