-- ==== Sys2Proof/Word.lean ====
section
/-! DEFINITION. The word types of the MLA unit: the widths that `00_scope.md` R5 and `10_state.md` R20 give. -/

namespace Sys2Proof

/-- One byte of the slot buffer (R39). -/
abbrev Byte := BitVec 8

/-- One 32-bit command word or control and status register value (R33, R90). -/
abbrev Word := BitVec 32

/-- One 64-bit limb of a Word256 or a Word512 (R21, R25). -/
abbrev Limb := BitVec 64

/-- The value of a Word256 register: four 64-bit limbs, `limb[0]` in bits 63:0 (R21). -/
abbrev Value256 := BitVec 256

/-- The value of the Word512 product register: eight 64-bit limbs, `limb[0]` in bits 63:0 (R25). -/
abbrev Value512 := BitVec 512

/-- One base 2^28 digit of an MPInt (R26). -/
abbrev Digit := BitVec 28

/-- A 4-bit register field of a command word, as encoded (R92). -/
abbrev RegField := BitVec 4

/-- The 4-bit slot field of a Format M command (R94). -/
abbrev SlotField := BitVec 4

/-- The 16-bit shift amount of a Format I command (R93). -/
abbrev ShiftAmount := BitVec 16

end Sys2Proof
end

