-- ==== Sys2Proof/Syntax.lean ====
section
/-! DEFINITION. The 20 commands of MLA-1, one constructor per row of `spec/opcode_table.json` (`30_encoding.md`
R100). A register operand is the 4-bit field of the command word (R92): `WellFormed.lean` says which indices are
legal. -/

namespace Sys2Proof

/-- A command of MLA-1 with its operand fields (R91, R100). -/
inductive Instr where
  /-- `NOP` (R240). -/
  | nop
  /-- `WADD wd, ws1, ws2` (R160). -/
  | wadd (rd rs1 rs2 : RegField)
  /-- `WSUB wd, ws1, ws2` (R161). -/
  | wsub (rd rs1 rs2 : RegField)
  /-- `WMUL wd, ws1, ws2` (R180). -/
  | wmul (rd rs1 rs2 : RegField)
  /-- `WAND wd, ws1, ws2` (R202). -/
  | wand (rd rs1 rs2 : RegField)
  /-- `WOR wd, ws1, ws2` (R203). -/
  | wor (rd rs1 rs2 : RegField)
  /-- `WXOR wd, ws1, ws2` (R204). -/
  | wxor (rd rs1 rs2 : RegField)
  /-- `WSHL wd, ws1, #n` (R200). -/
  | wshl (rd rs1 : RegField) (imm16 : ShiftAmount)
  /-- `WSHR wd, ws1, #n` (R201). -/
  | wshr (rd rs1 : RegField) (imm16 : ShiftAmount)
  /-- `WMVPL wd` (R181). -/
  | wmvpl (rd : RegField)
  /-- `WMVPH wd` (R182). -/
  | wmvph (rd : RegField)
  /-- `WLD wd, [slot]` (R220). -/
  | wld (r : RegField) (slot : SlotField)
  /-- `WST ws, [slot]` (R221). -/
  | wst (r : RegField) (slot : SlotField)
  /-- `MLD md, [slot], s` with `s` = true for `-` (R224, R95). -/
  | mld (r : RegField) (s : Bool) (slot : SlotField)
  /-- `MST ms, [slot]` (R226). -/
  | mst (r : RegField) (slot : SlotField)
  /-- `MADD md, ms1, ms2` (R141). -/
  | madd (rd rs1 rs2 : RegField)
  /-- `MSUB md, ms1, ms2` (R142). -/
  | msub (rd rs1 rs2 : RegField)
  /-- `MCMP ms1, ms2` (R124). -/
  | mcmp (rs1 rs2 : RegField)
  /-- `MCMPMAG ms1, ms2` (R125). -/
  | mcmpmag (rs1 rs2 : RegField)
  /-- `MINFO ms` (R126). -/
  | minfo (rs1 : RegField)
deriving DecidableEq, Repr

end Sys2Proof
end

