-- ==== Sys2Proof/WellFormed.lean ====
section
/-! DEFINITION. Which commands have legal operands: the register index ranges of `30_encoding.md` R92. -/

namespace Sys2Proof

/-- The field names a Word256 register: index 0 to 7 (R92). -/
def isWReg (f : RegField) : Bool := decide (f.toNat < Config.nw)

/-- The field names an MPInt register: index 0 to 3 (R92). -/
def isMReg (f : RegField) : Bool := decide (f.toNat < Config.nm)

/-- Every register field of the command is in the range of the file its opcode names (R92, R100). -/
def Instr.wellFormed : Instr → Bool
  | .nop => true
  | .wadd rd rs1 rs2 => isWReg rd && isWReg rs1 && isWReg rs2
  | .wsub rd rs1 rs2 => isWReg rd && isWReg rs1 && isWReg rs2
  | .wmul rd rs1 rs2 => isWReg rd && isWReg rs1 && isWReg rs2
  | .wand rd rs1 rs2 => isWReg rd && isWReg rs1 && isWReg rs2
  | .wor rd rs1 rs2 => isWReg rd && isWReg rs1 && isWReg rs2
  | .wxor rd rs1 rs2 => isWReg rd && isWReg rs1 && isWReg rs2
  | .wshl rd rs1 _ => isWReg rd && isWReg rs1
  | .wshr rd rs1 _ => isWReg rd && isWReg rs1
  | .wmvpl rd => isWReg rd
  | .wmvph rd => isWReg rd
  | .wld r _ => isWReg r
  | .wst r _ => isWReg r
  | .mld r _ _ => isMReg r
  | .mst r _ => isMReg r
  | .madd rd rs1 rs2 => isMReg rd && isMReg rs1 && isMReg rs2
  | .msub rd rs1 rs2 => isMReg rd && isMReg rs1 && isMReg rs2
  | .mcmp rs1 rs2 => isMReg rs1 && isMReg rs2
  | .mcmpmag rs1 rs2 => isMReg rs1 && isMReg rs2
  | .minfo rs1 => isMReg rs1

end Sys2Proof
end

