-- ==== Sys2Proof/Decode.lean ====
section
/-! DEFINITION. Decoding and encoding of command words (`30_encoding.md` R90 to R102). The decoder pulls the fields of
the three formats out once (R91) and checks them; the opcode map as masks and matches (R100) stands beside it as a
table, so that the two readings of the encoding can be compared. -/

namespace Sys2Proof

/-! ## The fields of a command word (R91) -/

/-- `op`, bits 31:24. -/
def opField (c : Word) : BitVec 8 := c.extractLsb' 24 8
/-- `rd` (Format R and I) or `r` (Format M), bits 23:20. -/
def rdField (c : Word) : RegField := c.extractLsb' 20 4
/-- `rs1`, bits 19:16. -/
def rs1Field (c : Word) : RegField := c.extractLsb' 16 4
/-- `rs2`, bits 15:12. -/
def rs2Field (c : Word) : RegField := c.extractLsb' 12 4
/-- The must-be-zero field of Format R, bits 11:0. -/
def low12Field (c : Word) : BitVec 12 := c.extractLsb' 0 12
/-- `imm16` (Format I), bits 15:0. -/
def imm16Field (c : Word) : ShiftAmount := c.extractLsb' 0 16
/-- The first must-be-zero field of Format M, bits 19:17. -/
def mHighField (c : Word) : BitVec 3 := c.extractLsb' 17 3
/-- `s` (Format M), bit 16: true for a negative sign (R95). -/
def sField (c : Word) : Bool := c.getLsbD 16
/-- The second must-be-zero field of Format M, bits 15:4. -/
def mMidField (c : Word) : BitVec 12 := c.extractLsb' 4 12
/-- `slot` (Format M), bits 3:0. -/
def slotField (c : Word) : SlotField := c.extractLsb' 0 4

/-! ## The decoder -/

/-- Why a word is an illegal command, after the three bullets of R102. All three raise ILLEGAL_CMD (R261). -/
inductive Illegal where
  /-- The opcode is none of the 20 of R100. -/
  | unassignedOpcode
  /-- A listed opcode with a non-zero bit in a must-be-zero field, an unused register field or an unused `s` bit. -/
  | mustBeZero
  /-- A listed opcode with a register index out of range (R92). -/
  | registerIndex
deriving DecidableEq, Repr

/-- A command whose must-be-zero fields are all zero (`zeros`) and whose register indices are in range is legal (R102). -/
def accept (zeros : Bool) (i : Instr) : Except Illegal Instr :=
  if zeros then (if i.wellFormed then .ok i else .error .registerIndex) else .error .mustBeZero

/-- The must-be-zero fields of a Format M command that takes no `s` (R91, R95). -/
def formatMZeros (c : Word) : Bool := mHighField c == 0 && !sField c && mMidField c == 0

/-- Decoding of a command word (R101). It is total on the 32-bit words and reads no state: a word that is no command of
MLA-1 is rejected by the name of the rule it breaks (R102). -/
def decode (c : Word) : Except Illegal Instr :=
  let rd := rdField c
  let rs1 := rs1Field c
  let rs2 := rs2Field c
  let low := low12Field c == 0
  match (opField c).toNat with
  | 0x00 => accept (rd == 0 && rs1 == 0 && rs2 == 0 && low) .nop
  | 0x10 => accept low (.wadd rd rs1 rs2)
  | 0x11 => accept low (.wsub rd rs1 rs2)
  | 0x12 => accept low (.wmul rd rs1 rs2)
  | 0x13 => accept low (.wand rd rs1 rs2)
  | 0x14 => accept low (.wor rd rs1 rs2)
  | 0x15 => accept low (.wxor rd rs1 rs2)
  | 0x16 => accept true (.wshl rd rs1 (imm16Field c))
  | 0x17 => accept true (.wshr rd rs1 (imm16Field c))
  | 0x18 => accept (rs1 == 0 && rs2 == 0 && low) (.wmvpl rd)
  | 0x19 => accept (rs1 == 0 && rs2 == 0 && low) (.wmvph rd)
  | 0x20 => accept (formatMZeros c) (.wld rd (slotField c))
  | 0x21 => accept (formatMZeros c) (.wst rd (slotField c))
  | 0x22 => accept (mHighField c == 0 && mMidField c == 0) (.mld rd (sField c) (slotField c))
  | 0x23 => accept (formatMZeros c) (.mst rd (slotField c))
  | 0x30 => accept low (.madd rd rs1 rs2)
  | 0x31 => accept low (.msub rd rs1 rs2)
  | 0x32 => accept (rd == 0 && low) (.mcmp rs1 rs2)
  | 0x33 => accept (rd == 0 && low) (.mcmpmag rs1 rs2)
  | 0x34 => accept (rd == 0 && rs2 == 0 && low) (.minfo rs1)
  | _ => .error .unassignedOpcode

/-- The host's entry to the decoder: the instruction that the word `w` of `nbits` bits is, if any. A command word is
one 32-bit value (R63, R90), so no byte order enters. -/
def decodeTableWord (nbits w : Nat) : Option Instr :=
  match decode (BitVec.ofNat 32 (w % 2 ^ nbits)) with
  | .ok i => some i
  | .error _ => none

/-! ## The encoder (R91, R100) -/

/-- Format R: `op`, `rd`, `rs1`, `rs2`, twelve zero bits. -/
def formatR (op : BitVec 8) (rd rs1 rs2 : RegField) : Word := op ++ rd ++ rs1 ++ rs2 ++ (0#12)
/-- Format I: `op`, `rd`, `rs1`, `imm16`. -/
def formatI (op : BitVec 8) (rd rs1 : RegField) (imm16 : ShiftAmount) : Word := op ++ rd ++ rs1 ++ imm16
/-- Format M: `op`, `r`, three zero bits, `s`, twelve zero bits, `slot`. -/
def formatM (op : BitVec 8) (r : RegField) (s : Bool) (slot : SlotField) : Word :=
  op ++ r ++ (0#3) ++ BitVec.ofBool s ++ (0#12) ++ slot

/-- The command word of a command (R91, R100, R107). On a command that is not well formed it is the illegal word whose
register field is out of range (R102). -/
def encode : Instr → Word
  | .nop => formatR 0x00#8 0 0 0
  | .wadd rd rs1 rs2 => formatR 0x10#8 rd rs1 rs2
  | .wsub rd rs1 rs2 => formatR 0x11#8 rd rs1 rs2
  | .wmul rd rs1 rs2 => formatR 0x12#8 rd rs1 rs2
  | .wand rd rs1 rs2 => formatR 0x13#8 rd rs1 rs2
  | .wor rd rs1 rs2 => formatR 0x14#8 rd rs1 rs2
  | .wxor rd rs1 rs2 => formatR 0x15#8 rd rs1 rs2
  | .wshl rd rs1 imm16 => formatI 0x16#8 rd rs1 imm16
  | .wshr rd rs1 imm16 => formatI 0x17#8 rd rs1 imm16
  | .wmvpl rd => formatR 0x18#8 rd 0 0
  | .wmvph rd => formatR 0x19#8 rd 0 0
  | .wld r slot => formatM 0x20#8 r false slot
  | .wst r slot => formatM 0x21#8 r false slot
  | .mld r s slot => formatM 0x22#8 r s slot
  | .mst r slot => formatM 0x23#8 r false slot
  | .madd rd rs1 rs2 => formatR 0x30#8 rd rs1 rs2
  | .msub rd rs1 rs2 => formatR 0x31#8 rd rs1 rs2
  | .mcmp rs1 rs2 => formatR 0x32#8 0 rs1 rs2
  | .mcmpmag rs1 rs2 => formatR 0x33#8 0 rs1 rs2
  | .minfo rs1 => formatR 0x34#8 0 rs1 0

/-! ## The opcode map as masks and matches (R100) -/

/-- One row of the opcode map: a word `c` is this command exactly when `c &&& mask = pattern`; `fields` says which
command it then is, with its fields read at the positions of R91. -/
structure OpcodeRow where
  mnemonic : String
  mask : Word
  pattern : Word
  fields : Word → Instr

/-- The word matches the row (R101). -/
def OpcodeRow.hits (r : OpcodeRow) (c : Word) : Bool := c &&& r.mask == r.pattern

/-- A Format R command with three register fields, from the word. -/
def fieldsR (k : RegField → RegField → RegField → Instr) (c : Word) : Instr := k (rdField c) (rs1Field c) (rs2Field c)

/-- The 20 rows of R100, masks and matches as its table prints them. -/
def opcodeMap : List OpcodeRow :=
  [ ⟨"NOP", 0xFFFFFFFF#32, 0x00000000#32, fun _ => .nop⟩,
    ⟨"WADD", 0xFF888FFF#32, 0x10000000#32, fieldsR .wadd⟩,
    ⟨"WSUB", 0xFF888FFF#32, 0x11000000#32, fieldsR .wsub⟩,
    ⟨"WMUL", 0xFF888FFF#32, 0x12000000#32, fieldsR .wmul⟩,
    ⟨"WAND", 0xFF888FFF#32, 0x13000000#32, fieldsR .wand⟩,
    ⟨"WOR", 0xFF888FFF#32, 0x14000000#32, fieldsR .wor⟩,
    ⟨"WXOR", 0xFF888FFF#32, 0x15000000#32, fieldsR .wxor⟩,
    ⟨"WSHL", 0xFF880000#32, 0x16000000#32, fun c => .wshl (rdField c) (rs1Field c) (imm16Field c)⟩,
    ⟨"WSHR", 0xFF880000#32, 0x17000000#32, fun c => .wshr (rdField c) (rs1Field c) (imm16Field c)⟩,
    ⟨"WMVPL", 0xFF8FFFFF#32, 0x18000000#32, fun c => .wmvpl (rdField c)⟩,
    ⟨"WMVPH", 0xFF8FFFFF#32, 0x19000000#32, fun c => .wmvph (rdField c)⟩,
    ⟨"WLD", 0xFF8FFFF0#32, 0x20000000#32, fun c => .wld (rdField c) (slotField c)⟩,
    ⟨"WST", 0xFF8FFFF0#32, 0x21000000#32, fun c => .wst (rdField c) (slotField c)⟩,
    ⟨"MLD", 0xFFCEFFF0#32, 0x22000000#32, fun c => .mld (rdField c) (sField c) (slotField c)⟩,
    ⟨"MST", 0xFFCFFFF0#32, 0x23000000#32, fun c => .mst (rdField c) (slotField c)⟩,
    ⟨"MADD", 0xFFCCCFFF#32, 0x30000000#32, fieldsR .madd⟩,
    ⟨"MSUB", 0xFFCCCFFF#32, 0x31000000#32, fieldsR .msub⟩,
    ⟨"MCMP", 0xFFFCCFFF#32, 0x32000000#32, fun c => .mcmp (rs1Field c) (rs2Field c)⟩,
    ⟨"MCMPMAG", 0xFFFCCFFF#32, 0x33000000#32, fun c => .mcmpmag (rs1Field c) (rs2Field c)⟩,
    ⟨"MINFO", 0xFFFCFFFF#32, 0x34000000#32, fun c => .minfo (rs1Field c)⟩ ]

end Sys2Proof
end

