-- ==== Sys2Proof/Machine/HostOp.lean ====
section
/-! DEFINITION. The host operations of `00_scope.md` R8 and the host's accesses to the unit's address window
(`20_memory.md` R64 to R66, `10_state.md` R33 to R38), as data, and which operation an access is. -/

namespace Sys2Proof.Machine

/-- The four readable control and status registers (R8, R66). -/
inductive Csr where
  | status
  | fcause
  | fcmd
  | finfo
deriving DecidableEq, Repr

/-- The five host operations of R8. A slot-buffer address has 9 bits: `0 <= a < 512`. -/
inductive HostOp where
  /-- `HostWriteSB(a, b)`. -/
  | writeSB (a : BitVec 9) (b : Byte)
  /-- `HostReadSB(a)`. -/
  | readSB (a : BitVec 9)
  /-- `HostCmd(c)`. -/
  | cmd (c : Word)
  /-- `HostReadCSR(r)`. -/
  | readCSR (r : Csr)
  /-- `HostReset`. -/
  | reset
deriving DecidableEq, Repr

/-- One thing the host does to the unit: a host operation of R8 named directly, or an access to the window of R66 at a
byte offset, `bytes` bytes wide, which may be no operation of the unit (R64). -/
inductive HostAccess where
  | op (o : HostOp)
  | windowWrite (offset bytes : Nat) (value : Nat)
  | windowRead (offset bytes : Nat)
deriving DecidableEq, Repr

/-- The value a host operation returns (R8, R65): a byte of the slot buffer, a 32-bit register value, or the 0 that a
read of no defined kind returns, `bytes` bytes wide (R64). -/
inductive HostValue where
  | byte (b : Byte)
  | word (w : Word)
  | zero (bytes : Nat)
deriving DecidableEq, Repr

/-- The returned value as the unsigned integer the host sees (R9). -/
def HostValue.toNat : HostValue → Nat
  | .byte b => b.toNat
  | .word w => w.toNat
  | .zero _ => 0

/-- Which operation a write access is (R66): one byte wide in the slot buffer, 32 bits wide at CMD, or 32 bits wide at
CTRL with bit 0 = 1 (R34). Every other write is no operation of the unit (R64). -/
def writeOperation (offset bytes value : Nat) : Option HostOp :=
  if bytes = 1 ∧ offset < Config.sbBytes then
    some (.writeSB (BitVec.ofNat 9 offset) (BitVec.ofNat 8 value))
  else if bytes = 4 ∧ offset = Config.offCmd then
    some (.cmd (BitVec.ofNat 32 value))
  else if bytes = 4 ∧ offset = Config.offCtrl ∧ (BitVec.ofNat 32 value).getLsbD 0 then
    some .reset
  else none

/-- Which operation a read access is (R66): one byte wide in the slot buffer, or 32 bits wide at a readable register.
Every other read, CMD and CTRL included (R33, R34), is no operation of the unit (R64). -/
def readOperation (offset bytes : Nat) : Option HostOp :=
  if bytes = 1 ∧ offset < Config.sbBytes then some (.readSB (BitVec.ofNat 9 offset))
  else if bytes = 4 ∧ offset = Config.offStatus then some (.readCSR .status)
  else if bytes = 4 ∧ offset = Config.offFcause then some (.readCSR .fcause)
  else if bytes = 4 ∧ offset = Config.offFcmd then some (.readCSR .fcmd)
  else if bytes = 4 ∧ offset = Config.offFinfo then some (.readCSR .finfo)
  else none

end Sys2Proof.Machine
end

