-- ==== Sys2Proof/Machine/State.lean ====
section
/-! DEFINITION. The whole architectural state of the MLA unit (`10_state.md` R20), the two fields the model adds for the
host's side of a run (`00_scope.md` R8), and the reset state (`10_state.md` R41). -/

namespace Sys2Proof.Machine

/-- A Word256 register: its four limbs as one 256-bit value, `limb[0]` in bits 63:0 (R21), and its overflow flag
(R22). -/
structure WordReg where
  value : Value256
  ovf   : Bool
deriving DecidableEq, Repr

/-- An MPInt register (R26): `sign` is true for negative, `used` is 0 to `MP_CAP` = 10 (a greater count is no value of the
type: `93_implementation_defined.md` U3), and `dp[0]` is the least-significant digit. -/
structure MPInt where
  sign : Bool
  used : Fin 11
  dp   : Vector Digit 10
deriving DecidableEq, Repr

/-- The cause codes FCAUSE can hold (R36, R260). -/
inductive FaultCause where
  | none
  | illegalCmd
  | mpCapacity
  | narrowOverflow
deriving DecidableEq, Repr

/-- The slot buffer as the list of its bytes that differ from the reset contents, addresses strictly rising. -/
abbrev Memory := List Host.Cell

/-- Why a step would stop the machine with a fault: never. Every fault of the MLA unit is latched in STATUS and the machine
goes on (R264), so this type has no constructor and no fault can be answered. Safe. -/
inductive Fault : Type
deriving DecidableEq, Repr

/-- Why the model would give an instruction no meaning. -/
inductive Refusal where
  /-- Raised by `exec` for an instruction whose meaning is not written; no arm does so. Safe: a run stops. -/
  | notModelled (mnemonic : String)
deriving DecidableEq, Repr

/-- The architectural state of R20, then the model's own two fields. -/
structure State where
  /-- Word256 registers `W[0..7]` with their overflow flags (R21, R22). -/
  w : Vector WordReg 8
  /-- The product register `P`, eight limbs, `limb[0]` in bits 63:0 (R25). -/
  p : Value512
  /-- MPInt registers `M[0..3]` (R26). -/
  m : Vector MPInt 4
  /-- The slot buffer `SB[0..511]` (R39), in canonical form. -/
  sb : Memory
  /-- STATUS.FAULT (R35). -/
  fault : Bool
  /-- STATUS.CMP (R35): EQ, LT or GT. -/
  cmp : Ordering
  /-- STATUS.MSIGN (R35). -/
  msign : Bool
  /-- STATUS.MUSED (R35). -/
  mused : BitVec 8
  /-- FCAUSE (R36). -/
  fcause : FaultCause
  /-- FCMD (R37). -/
  fcmd : Word
  /-- FINFO (R38). -/
  finfo : Word
  /-- The model's own: the host operations of the run not performed yet, in the host's order (R8). -/
  pending : List HostAccess
  /-- The model's own: what the last host operation performed returned, if it returns a value (R8). -/
  hostRead : Option HostValue
deriving DecidableEq, Repr

/-- Canonical zero: empty digit sequence, non-negative sign, every digit zero (R27, R41). -/
def MPInt.zero : MPInt := { sign := false, used := 0, dp := Vector.replicate 10 0 }

/-- The machine right after reset: every piece of state zero, every MPInt register canonical zero (R41, R300), with no
host operation performed or waiting (`notes/assumptions/1.md`). -/
def State.reset : State :=
  { w := Vector.replicate 8 { value := 0, ovf := false }
    p := BitVec.zero 512
    m := Vector.replicate 4 MPInt.zero
    sb := []
    fault := false
    cmp := .eq
    msign := false
    mused := 0
    fcause := .none
    fcmd := 0
    finfo := 0
    pending := []
    hostRead := none }

/-- What a step or a meaning answers. -/
abbrev Result := Host.Outcome State Fault Refusal

end Sys2Proof.Machine
end

