-- ==== Sys2Proof/Machine/Mpint.lean ====
section
/-! DEFINITION. MPInt values: magnitude and value (`00_scope.md` R10), normalization and comparison
(`40_mpint_compare.md` R120 to R123), the register of an integer (`41_mpint_addsub.md` R140), and the digit-level add and
subtract (R143 to R145), which the spec proves equal to the integer rules that `MADD` and `MSUB` follow. -/

namespace Sys2Proof.Machine

/-- Digit `k` of a digit vector as an integer; there is no digit at or above `MP_CAP` (R26). -/
def digitAt (dp : Vector Digit 10) (k : Nat) : Nat := (dp[k]?.getD 0).toNat

/-- `sum over k < n of dp[k] * 2^(28*k)` (R10, R26). -/
def digitSum (dp : Vector Digit 10) : Nat → Nat
  | 0 => 0
  | n + 1 => digitSum dp n + digitAt dp n * 2 ^ (Config.digitBits * n)

/-- `mag(m)` (R10). -/
def mag (m : MPInt) : Nat := digitSum m.dp m.used.val

/-- `val(m)` (R10). -/
def val (m : MPInt) : Int := if m.sign then -(mag m : Int) else (mag m : Int)

/-- The digit vector whose digit `k` is `f k mod 2^28`. -/
def digitsOf (f : Nat → Nat) : Vector Digit 10 := Vector.ofFn fun k => BitVec.ofNat 28 (f k.val)

/-- The count `u` after the loop of R120 that trims most-significant zero digits, starting from a tentative count. -/
def trimmedLength (dp : Vector Digit 10) : Nat → Nat
  | 0 => 0
  | u + 1 => if digitAt dp u = 0 then trimmedLength dp u else u + 1

/-- `mp_normalize(sign, used, dp)` (R120), on the raw record: trim, force zero non-negative, clear the tail. -/
def mpNormalize (m : MPInt) : MPInt :=
  let u := trimmedLength m.dp m.used.val
  { sign := if u = 0 then false else m.sign
    used := Fin.ofNat 11 u
    dp := digitsOf fun k => if k < u then digitAt m.dp k else 0 }

/-- The loop of R122 over the digits below `n`, most-significant digit first. -/
def compareDigits (a b : Vector Digit 10) : Nat → Ordering
  | 0 => .eq
  | k + 1 =>
    if digitAt a k > digitAt b k then .gt
    else if digitAt a k < digitAt b k then .lt
    else compareDigits a b k

/-- `mp_cmp_mag(a, b)` (R122): length first, then most-significant digit first. -/
def mpCmpMag (a b : MPInt) : Ordering :=
  if a.used > b.used then .gt
  else if a.used < b.used then .lt
  else compareDigits a.dp b.dp a.used.val

/-- `mp_cmp(a, b)` (R123): the signed comparison. -/
def mpCmp (a b : MPInt) : Ordering :=
  if a.sign != b.sign then (if a.sign then .lt else .gt)
  else if !a.sign then mpCmpMag a b
  else mpCmpMag b a

/-- The least `u` from 0 to `MP_CAP` with `n < 2^(28*u)` (R140). Where there is none, `mp_from_int` is undefined and never
called (`notes/assumptions/6.md`). -/
def leastLength (n : Nat) : Nat :=
  ((List.range (Config.mpCap + 1)).find? fun u => decide (n < 2 ^ (Config.digitBits * u))).getD Config.mpCap

/-- `mp_from_int(v)` (R140), for `|v| < 2^280`. -/
def mpFromInt (v : Int) : MPInt :=
  { sign := decide (v < 0)
    used := Fin.ofNat 11 (leastLength v.natAbs)
    dp := digitsOf fun k => v.natAbs / 2 ^ (Config.digitBits * k) }

/-! ## The digit-level algorithms -/

/-- `c` on entry to digit position `k` of `s_add` (R144). -/
def addCarry (a b : Vector Digit 10) : Nat → Nat
  | 0 => 0
  | k + 1 => (digitAt a k + digitAt b k + addCarry a b k) / 2 ^ Config.digitBits

/-- `s_add(a, b)` (R144): the digits and the carry out; the tentative length is `MP_CAP`. -/
def sAdd (a b : MPInt) : Vector Digit 10 × Nat :=
  (digitsOf fun k => (digitAt a.dp k + digitAt b.dp k + addCarry a.dp b.dp k) % 2 ^ Config.digitBits,
   addCarry a.dp b.dp Config.mpCap)

/-- The borrow `c` on entry to digit position `k` of `s_sub` (R145). -/
def subBorrow (a b : Vector Digit 10) : Nat → Nat
  | 0 => 0
  | k + 1 => if (digitAt a k : Int) - digitAt b k - subBorrow a b k < 0 then 1 else 0

/-- `s_sub(a, b)` (R145), defined for `mag(a) >= mag(b)`; the tentative length is `MP_CAP`. On other operands, which the
dispatch never passes, it returns what the pseudocode does (`93_implementation_defined.md` U2). -/
def sSub (a b : MPInt) : Vector Digit 10 :=
  digitsOf fun k =>
    let t : Int := (digitAt a.dp k : Int) - digitAt b.dp k - subBorrow a.dp b.dp k
    (if t < 0 then t + 2 ^ Config.digitBits else t).toNat

/-- `mp_add_signed(a, b)` (R143): `none` where it raises MP_CAPACITY. -/
def mpAddSigned (a b : MPInt) : Option MPInt :=
  if a.sign = b.sign then
    if (sAdd a b).2 = 1 then none
    else some (mpNormalize { sign := a.sign, used := 10, dp := (sAdd a b).1 })
  else if mpCmpMag a b = .lt then some (mpNormalize { sign := b.sign, used := 10, dp := sSub b a })
  else some (mpNormalize { sign := a.sign, used := 10, dp := sSub a b })

/-- `neg(b)` (R143): the sign inverted, but for a zero. -/
def mpNeg (b : MPInt) : MPInt := if b.used = 0 then b else { b with sign := !b.sign }

/-! ## The invariant of the MPInt file -/

/-- Items 1 to 3 of R27, on one register; item 4 (`used <= MP_CAP`) is the type of `used`. -/
def normalized (m : MPInt) : Bool :=
  decide (m.used = 0 ∨ digitAt m.dp (m.used.val - 1) ≠ 0) &&
  decide (m.used = 0 → m.sign = false) &&
  (List.range Config.mpCap).all fun k => decide (m.used.val ≤ k → digitAt m.dp k = 0)

end Sys2Proof.Machine
end

