-- ==== Sys2Proof/Machine/Operands.lean ====
section
/-! DEFINITION. The operand forms of MLA-1: what the fields of a command name (`30_encoding.md` R92 to R95). -/

namespace Sys2Proof.Machine

/-- The Word256 register a field names (R92). Legal fields are 0 to 7; the command of any other is illegal and reads no
register, so bit 3 is never used. -/
def wIndex (f : RegField) : Fin 8 := ⟨f.toNat % 8, Nat.mod_lt _ (by decide)⟩

/-- The MPInt register a field names (R92). Legal fields are 0 to 3; bits 3:2 are never used. -/
def mIndex (f : RegField) : Fin 4 := ⟨f.toNat % 4, Nat.mod_lt _ (by decide)⟩

/-- The byte offset of a slot in the slot buffer, `32*slot` (R94). -/
def slotAddress (slot : SlotField) : Nat := Config.slotBytes * slot.toNat

/-- The shift amount: the immediate as an unsigned number 0 to 65535, not scaled, not sign-extended (R93). -/
def shiftAmount (imm16 : ShiftAmount) : Nat := imm16.toNat

/-- The integer an `MLD` makes of the slot's magnitude and the command's `s` (R95, R224). -/
def signedMagnitude (s : Bool) (v : Nat) : Int := if s then -(v : Int) else (v : Int)

end Sys2Proof.Machine
end

