-- ==== Sys2Proof/Machine/Flags.lean ====
section
/-! DEFINITION. Every flag computation of MLA-1 (`10_state.md` R22, R29) and the readable registers as the 32-bit values
the host reads (R35 to R38). -/

namespace Sys2Proof.Machine

/-- The overflow flag that `WMUL` writes: 1 if any of the high 256 bits of the product is non-zero (R22, R180). -/
def mulOverflow (p : Value512) : Bool := decide (p.toNat / 2 ^ 256 ≠ 0)

/-- The overflow flag that every other command that writes a Word256 register writes (R22, `90_conflicts.md` C3). -/
def nonMultiplyOvf : Bool := false

/-- The CMP code of a comparison result: 0 = EQ, 1 = LT, 2 = GT (R35, R124). -/
def cmpCode : Ordering → BitVec 2
  | .eq => 0
  | .lt => 1
  | .gt => 2

/-- The MUSED field of a length: `zext_8(used)` (R126). -/
def usedField (used : Fin 11) : BitVec 8 := BitVec.ofNat 8 used.val

/-- The FCAUSE code of a cause (R36, R260). -/
def causeCode : FaultCause → BitVec 4
  | .none => 0
  | .illegalCmd => 1
  | .mpCapacity => 2
  | .narrowOverflow => 3

/-- The information word of a cause (R38, R260). -/
def causeInfo : FaultCause → Word
  | .none => 0
  | .illegalCmd => 0
  | .mpCapacity => BitVec.ofNat 32 Config.capacityBits
  | .narrowOverflow => BitVec.ofNat 32 Config.narrowBits

/-- The overflow flag of register `i`. -/
def ovfBit (s : State) (i : Fin 8) : BitVec 1 := BitVec.ofBool (s.w.get i).ovf

/-- STATUS.WOVF: bit `i` is `W[i].ovf` at the moment of the read; a view, not stored state (R35). -/
def wovf (s : State) : BitVec 8 :=
  ovfBit s 7 ++ ovfBit s 6 ++ ovfBit s 5 ++ ovfBit s 4 ++ ovfBit s 3 ++ ovfBit s 2 ++ ovfBit s 1 ++ ovfBit s 0

/-- The 32-bit value of STATUS (R35): from bit 31 down, eight reserved bits, WOVF, MUSED, four reserved bits, MSIGN, CMP,
FAULT. -/
def statusWord (s : State) : Word :=
  (0#8) ++ wovf s ++ s.mused ++ (0#4) ++ BitVec.ofBool s.msign ++ cmpCode s.cmp ++ BitVec.ofBool s.fault

/-- The 32-bit value of FCAUSE: the code in bits 3:0, the rest 0 (R36). -/
def fcauseWord (s : State) : Word := (0#28) ++ causeCode s.fcause

/-- The value a read of a control and status register returns (R8, R35 to R38). -/
def csrWord (s : State) : Csr → Word
  | .status => statusWord s
  | .fcause => fcauseWord s
  | .fcmd => s.fcmd
  | .finfo => s.finfo

end Sys2Proof.Machine
end

