-- ==== Sys2Proof/Machine/Memory.lean ====
section
/-! DEFINITION. The slot buffer as memory (`10_state.md` R39): reading and writing bytes in canonical form, and the byte
list primitives `MemRead`, `MemWrite`, `be` and `be_bytes` of `00_scope.md` R10. -/

namespace Sys2Proof.Machine

/-- What a byte that no entry lists reads as: the reset contents of the slot buffer (R41). -/
def unlistedByte : Byte := 0

/-- One byte of the slot buffer, `SB[a]` (R10). -/
def Memory.read : Memory → Nat → Byte
  | [], _ => unlistedByte
  | (a', b') :: m, a => if a = a' then b' else Memory.read m a

/-- `SB[a] <- b` (R10). It keeps the addresses strictly rising and lists no byte equal to its reset contents. -/
def Memory.write : Memory → Nat → Byte → Memory
  | [], a, b => if b = unlistedByte then [] else [(a, b)]
  | (a', b') :: m, a, b =>
    if a < a' then (if b = unlistedByte then (a', b') :: m else (a, b) :: (a', b') :: m)
    else if a = a' then (if b = unlistedByte then m else (a, b) :: m)
    else (a', b') :: Memory.write m a b

/-- The canonical form from address `lo` on: addresses strictly rising, every one at least `lo`, no listed byte equal to
what an unlisted one reads as. -/
def Memory.wfFrom : Nat → Memory → Bool
  | _, [] => true
  | lo, (a, b) :: m => decide (lo ≤ a) && decide (b ≠ unlistedByte) && Memory.wfFrom (a + 1) m

/-- The canonical form of the slot buffer's contents. -/
def Memory.wf (m : Memory) : Bool := Memory.wfFrom 0 m

/-- Every listed address is one of the 512 bytes (R39). -/
def Memory.inBuffer (m : Memory) : Bool := m.all fun c => decide (c.1 < Config.sbBytes)

/-- `MemRead(addr, n)`: the `n` bytes from `addr` on, first byte first (R10). -/
def memRead (m : Memory) (addr : Nat) : Nat → List Byte
  | 0 => []
  | n + 1 => Memory.read m addr :: memRead m (addr + 1) n

/-- `MemWrite(addr, n, bytes)`: byte `k` of the list goes to `addr + k` (R10). -/
def memWrite (m : Memory) (addr : Nat) : List Byte → Memory
  | [] => m
  | b :: bs => memWrite (Memory.write m addr b) (addr + 1) bs

/-- `be(bytes)`: the big-endian integer of a byte list (R10, R61). -/
def be : List Byte → Nat
  | [] => 0
  | b :: bs => b.toNat * 2 ^ (8 * bs.length) + be bs

/-- `be_bytes(v, n)`: byte `k` is `(v div 2^(8*(n-1-k))) mod 256` (R10). -/
def beBytes (v : Nat) : Nat → List Byte
  | 0 => []
  | n + 1 => BitVec.ofNat 8 (v / 2 ^ (8 * n)) :: beBytes v n

end Sys2Proof.Machine
end

