-- ==== Sys2Proof/Machine/WordArith.lean ====
section
/-! DEFINITION. Word256 arithmetic: the integer rules (`42_word256_addsub.md` R160, R161, `43_word256_mul.md` R180,
`44_word256_shift_logic.md` R200 to R204), the limbs of a word (`10_state.md` R21), and the limb-level algorithms (R162,
R163, R164, R183, R205), which the spec proves equal to the integer rules that the commands follow. -/

namespace Sys2Proof.Machine

/-- Limb `j` of a Word256 (R21); there is none above 3. -/
def limb (v : Value256) (j : Nat) : Limb := v.extractLsb' (64 * j) 64

/-- Limb `j` of the Word512 (R25). -/
def productLimb (p : Value512) (j : Nat) : Limb := p.extractLsb' (64 * j) 64

/-- The Word256 with the given limbs (R21). -/
def ofLimbs (f : Nat → Limb) : Value256 := f 3 ++ f 2 ++ f 1 ++ f 0

/-- `(a + b) mod 2^256` (R160). -/
def wordAdd (a b : Value256) : Value256 := BitVec.ofNat 256 (a.toNat + b.toNat)

/-- `(a - b) mod 2^256` (R161). -/
def wordSub (a b : Value256) : Value256 := BitVec.ofInt 256 ((a.toNat : Int) - (b.toNat : Int))

set_option exponentiation.threshold 512 in
/-- The product of two Word256 values fits 512 bits (R180). -/
theorem product_lt (a b : Value256) : a.toNat * b.toNat < 2 ^ 512 := by
  have h : a.toNat * b.toNat < 2 ^ 256 * 2 ^ 256 := Nat.mul_lt_mul'' a.isLt b.isLt
  rwa [← pow_add] at h

set_option exponentiation.threshold 512 in
/-- The exact product, all 512 bits, nothing reduced (R180). -/
def wordMul (a b : Value256) : Value512 := BitVec.ofNatLT (a.toNat * b.toNat) (product_lt a b)

/-- `P mod 2^256`: limbs 0 to 3 of `P` (R180, R181). -/
def lowHalf (p : Value512) : Value256 := BitVec.ofNat 256 (p.toNat % 2 ^ 256)

/-- `P div 2^256`: limbs 4 to 7 of `P` (R182). -/
def highHalf (p : Value512) : Value256 := BitVec.ofNat 256 (p.toNat / 2 ^ 256)

/-- Logical shift left (R200), in the two arms of the rule. -/
def wordShl (a : Value256) (n : Nat) : Value256 :=
  if n ≥ 256 then 0 else BitVec.ofNat 256 (a.toNat * 2 ^ n % 2 ^ 256)

/-- Logical shift right (R201), in the two arms of the rule. -/
def wordShr (a : Value256) (n : Nat) : Value256 :=
  if n ≥ 256 then 0 else BitVec.ofNat 256 (a.toNat / 2 ^ n)

/-- Bitwise AND limb by limb (R202). -/
def wordAnd (a b : Value256) : Value256 := ofLimbs fun j => limb a j &&& limb b j

/-- Bitwise OR limb by limb (R203). -/
def wordOr (a b : Value256) : Value256 := ofLimbs fun j => limb a j ||| limb b j

/-- Bitwise exclusive OR limb by limb (R204). -/
def wordXor (a b : Value256) : Value256 := ofLimbs fun j => limb a j ^^^ limb b j

/-! ## The limb-level algorithms -/

/-- `c[j]` of R162. -/
def limbCarry (a b : Value256) : Nat → Nat
  | 0 => 0
  | j + 1 => ((limb a j).toNat + (limb b j).toNat + limbCarry a b j) / 2 ^ 64

/-- Addition limb by limb with carry (R162). -/
def addByLimbs (a b : Value256) : Value256 :=
  ofLimbs fun j => BitVec.ofNat 64 (((limb a j).toNat + (limb b j).toNat + limbCarry a b j) % 2 ^ 64)

/-- `t` of R163 at limb `j`, for the borrow into it. -/
def limbDifference (a b : Value256) (j borrow : Nat) : Int :=
  ((limb a j).toNat : Int) - (limb b j).toNat - borrow

/-- `b[j]` of R163. -/
def limbBorrow (a b : Value256) : Nat → Nat
  | 0 => 0
  | j + 1 => if limbDifference a b j (limbBorrow a b j) < 0 then 1 else 0

/-- Subtraction limb by limb with borrow (R163). -/
def subByLimbs (a b : Value256) : Value256 :=
  ofLimbs fun j =>
    let t := limbDifference a b j (limbBorrow a b j)
    BitVec.ofInt 64 (if t < 0 then t + 2 ^ 64 else t)

/-- The carry-out identity of R164 (orientation, not normative): bit 63 of `(a & b) | ((a | b) & ~r)`. -/
def carryIdentity (a b r : Limb) : Bool := ((a &&& b) ||| ((a ||| b) &&& ~~~r)).getLsbD 63

/-- The borrow-out identity of R164 (orientation, not normative): bit 63 of `(~a & b) | ((~a | b) & r)`. -/
def borrowIdentity (a b r : Limb) : Bool := ((~~~a &&& b) ||| ((~~~a ||| b) &&& r)).getLsbD 63

/-- One row of R183: the accumulator limbs from position `i` on, least-significant first, plus `ai` times the limbs of
`b`, with the carry into the first; the carry out of the row becomes the limb after the last one it touches. -/
def mulRow (ai : Nat) : List Nat → List Nat → Nat → List Nat
  | b :: bs, t :: ts, carry =>
    let t := ai * b + t + carry
    t % 2 ^ 64 :: mulRow ai bs ts (t / 2 ^ 64)
  | [], _ :: ts, carry => carry :: ts
  | _, [], _ => []

/-- The rows of R183 for `a.limb[i], a.limb[i+1], ...`: each row leaves the lowest limb it reaches final. -/
def mulRows : List Nat → List Nat → List Nat → List Nat
  | [], _, acc => acc
  | ai :: as, b, acc =>
    match mulRow ai b acc 0 with
    | [] => []
    | t :: ts => t :: mulRows as b ts

/-- The limbs of a Word256 as integers, least-significant first. -/
def limbList (v : Value256) : List Nat := (List.range 4).map fun j => (limb v j).toNat

/-- The integer of a list of limbs, least-significant first (R21, R25). -/
def limbsValue : List Nat → Nat
  | [] => 0
  | l :: ls => l + 2 ^ 64 * limbsValue ls

/-- The product limb pair by limb pair (R183), all eight accumulator limbs. -/
def mulByLimbs (a b : Value256) : List Nat := mulRows (limbList a) (limbList b) (List.replicate 8 0)

/-- Limb `j` of a left shift by `n < 256` (R205), with `q = n div 64` and `r = n mod 64`. -/
def shlLimb (a : Value256) (n j : Nat) : Limb :=
  let q := n / 64
  let r := n % 64
  if j < q then 0
  else
    BitVec.ofNat 64 ((limb a (j - q)).toNat * 2 ^ r % 2 ^ 64) |||
      (if r = 0 ∨ j < q + 1 then 0 else BitVec.ofNat 64 ((limb a (j - q - 1)).toNat / 2 ^ (64 - r)))

/-- Limb `j` of a right shift by `n < 256` (R205); a limb index above 3 reads as 0. -/
def shrLimb (a : Value256) (n j : Nat) : Limb :=
  let q := n / 64
  let r := n % 64
  BitVec.ofNat 64 ((limb a (j + q)).toNat / 2 ^ r) |||
    (if r = 0 then 0 else BitVec.ofNat 64 ((limb a (j + q + 1)).toNat * 2 ^ (64 - r) % 2 ^ 64))

/-- A left shift limb by limb (R205). -/
def shlByLimbs (a : Value256) (n : Nat) : Value256 := ofLimbs (shlLimb a n)

/-- A right shift limb by limb (R205). -/
def shrByLimbs (a : Value256) (n : Nat) : Value256 := ofLimbs (shrLimb a n)

end Sys2Proof.Machine
end

