-- ==== Sys2Proof/Machine/Ops.lean ====
section
/-! DEFINITION. The named operations over registers and memory, and the taking of a fault with the one way back
(`60_exceptions.md` R264, R269). -/

namespace Sys2Proof.Machine

/-! ## Registers and slots -/

/-- `W[i]` as a value (R10). -/
def State.wordAt (s : State) (i : Fin 8) : Value256 := (s.w.get i).value

/-- `W[i].ovf` (R22). -/
def State.ovfAt (s : State) (i : Fin 8) : Bool := (s.w.get i).ovf

/-- `M[i]` (R26). -/
def State.mpAt (s : State) (i : Fin 4) : MPInt := s.m.get i

/-- `SB[a]` (R39). -/
def State.byteAt (s : State) (a : Nat) : Byte := Memory.read s.sb a

/-- `W[i] <- v` and `W[i].ovf <- o` (R22): every command that writes a Word256 register writes its flag. -/
def State.setWord (s : State) (i : Fin 8) (v : Value256) (o : Bool) : State :=
  { s with w := s.w.set i { value := v, ovf := o } }

/-- `M[i] <- m` (R10). -/
def State.setMp (s : State) (i : Fin 4) (v : MPInt) : State := { s with m := s.m.set i v }

/-- `SB[a] <- b` (R8, R39). -/
def State.setByte (s : State) (a : Nat) (b : Byte) : State := { s with sb := Memory.write s.sb a b }

/-- The 256-bit big-endian integer of a slot, `be(MemRead(32*slot, 32))` (R61, R220). -/
def State.slotValue (s : State) (slot : SlotField) : Nat := be (memRead s.sb (slotAddress slot) Config.slotBytes)

/-- `MemWrite(32*slot, 32, be_bytes(v, 32))`, all 32 bytes at once (R65, R221). -/
def State.setSlot (s : State) (slot : SlotField) (v : Nat) : State :=
  { s with sb := memWrite s.sb (slotAddress slot) (beBytes v Config.slotBytes) }

/-! ## Taking a fault, and the way back -/

/-- Taking a fault (R264): STATUS.FAULT, FCAUSE, FCMD and FINFO are written and nothing else. -/
def State.takeFault (s : State) (cause : FaultCause) (command : Word) : State :=
  { s with fault := true, fcause := cause, fcmd := command, finfo := causeInfo cause }

/-- `raise F(i)` (R10, R264) in the command `i`: the word recorded is the command's own (R37). -/
def raise (cause : FaultCause) (i : Instr) (s : State) : Result := .next (s.takeFault cause (encode i))

/-- The one way out of a fault is reset (R269, R301): every piece of the unit's state at its value of R41. The host's
operations still to come are not the unit's (`notes/assumptions/1.md`). -/
def State.softReset (s : State) : State := { State.reset with pending := s.pending }

/-! ## The shared shapes of a command -/

/-- A command executes only if it is legal; a word with a register index out of range raises ILLEGAL_CMD before any operand
is read (R92, R102, R261). A command that was decoded is always legal. -/
def whenLegal (i : Instr) (s : State) (r : Result) : Result :=
  if i.wellFormed then r else raise .illegalCmd i s

/-- A command that computes a Word256 from two Word256 sources and writes it to `rd` with a clear flag: sources are read
before the destination is written (R306). -/
def wordOp (i : Instr) (f : Value256 → Value256 → Value256) (rd rs1 rs2 : RegField) (s : State) : Result :=
  whenLegal i s <|
    .next (s.setWord (wIndex rd) (f (s.wordAt (wIndex rs1)) (s.wordAt (wIndex rs2))) nonMultiplyOvf)

/-- A command that shifts a Word256 source by an immediate amount (R200, R201). -/
def shiftOp (i : Instr) (f : Value256 → Nat → Value256) (rd rs1 : RegField) (imm16 : ShiftAmount) (s : State) : Result :=
  whenLegal i s <| .next (s.setWord (wIndex rd) (f (s.wordAt (wIndex rs1)) (shiftAmount imm16)) nonMultiplyOvf)

/-- A command that copies half of the product register to a Word256 register (R181, R182). -/
def moveHalf (i : Instr) (half : Value512 → Value256) (rd : RegField) (s : State) : Result :=
  whenLegal i s <| .next (s.setWord (wIndex rd) (half s.p) nonMultiplyOvf)

/-- Write the exact integer `v` to an MPInt register, or raise MP_CAPACITY when its magnitude needs more than `MP_CAP`
digits: never wrapped, never truncated (R141, R142, R262). -/
def writeInteger (i : Instr) (rd : RegField) (v : Int) (s : State) : Result :=
  if v.natAbs ≥ 2 ^ Config.capacityBits then raise .mpCapacity i s
  else .next (s.setMp (mIndex rd) (mpFromInt v))

/-- Record a comparison result in STATUS.CMP and nothing else (R124, R125). -/
def setCmp (r : Ordering) (s : State) : State := { s with cmp := r }

end Sys2Proof.Machine
end

