-- ==== Sys2Proof/Machine/LoadStore.lean ====
section
/-! DEFINITION. Loads and stores between a slot and a register (`45_load_store.md`). -/

namespace Sys2Proof.Machine

/-- `WLD`: the slot's big-endian integer to `W[r]`, flag cleared (R220). -/
def execWld (r : RegField) (slot : SlotField) (s : State) : Result :=
  whenLegal (.wld r slot) s <|
    .next (s.setWord (wIndex r) (BitVec.ofNat 256 (s.slotValue slot)) nonMultiplyOvf)

/-- `WST`: all 32 bytes of the slot from `W[r]`; the flag is not stored (R221). -/
def execWst (r : RegField) (slot : SlotField) (s : State) : Result :=
  whenLegal (.wst r slot) s <| .next (s.setSlot slot (s.wordAt (wIndex r)).toNat)

/-- `MLD`: the slot's integer as a magnitude, with the sign of the command, normalized (R224). -/
def execMld (r : RegField) (sign : Bool) (slot : SlotField) (s : State) : Result :=
  whenLegal (.mld r sign slot) s <|
    .next (s.setMp (mIndex r) (mpFromInt (signedMagnitude sign (s.slotValue slot))))

/-- `MST`: the magnitude of `M[r]` to the slot, or NARROW_OVERFLOW when it does not fit 256 bits (R226). -/
def execMst (r : RegField) (slot : SlotField) (s : State) : Result :=
  whenLegal (.mst r slot) s <|
    let v := mag (s.mpAt (mIndex r))
    if v ≥ 2 ^ Config.narrowBits then raise .narrowOverflow (.mst r slot) s
    else .next (s.setSlot slot v)

end Sys2Proof.Machine
end

