-- ==== Sys2Proof/Machine/MpintAddSub.lean ====
section
/-! DEFINITION. MPInt add and subtract (`41_mpint_addsub.md`), by the integer rules R141 and R142, which govern. -/

namespace Sys2Proof.Machine

/-- `MADD`: the exact signed sum, or MP_CAPACITY (R141). -/
def execMadd (rd rs1 rs2 : RegField) (s : State) : Result :=
  whenLegal (.madd rd rs1 rs2) s <|
    writeInteger (.madd rd rs1 rs2) rd (val (s.mpAt (mIndex rs1)) + val (s.mpAt (mIndex rs2))) s

/-- `MSUB`: the exact signed difference, or MP_CAPACITY (R142). -/
def execMsub (rd rs1 rs2 : RegField) (s : State) : Result :=
  whenLegal (.msub rd rs1 rs2) s <|
    writeInteger (.msub rd rs1 rs2) rd (val (s.mpAt (mIndex rs1)) - val (s.mpAt (mIndex rs2))) s

end Sys2Proof.Machine
end

