-- ==== Sys2Proof/Machine/MpintCompare.lean ====
section
/-! DEFINITION. The comparator commands (`40_mpint_compare.md`). -/

namespace Sys2Proof.Machine

/-- `MCMP`: signed comparison to STATUS.CMP (R124). -/
def execMcmp (rs1 rs2 : RegField) (s : State) : Result :=
  whenLegal (.mcmp rs1 rs2) s <| .next (setCmp (mpCmp (s.mpAt (mIndex rs1)) (s.mpAt (mIndex rs2))) s)

/-- `MCMPMAG`: magnitude comparison to STATUS.CMP (R125). -/
def execMcmpmag (rs1 rs2 : RegField) (s : State) : Result :=
  whenLegal (.mcmpmag rs1 rs2) s <| .next (setCmp (mpCmpMag (s.mpAt (mIndex rs1)) (s.mpAt (mIndex rs2))) s)

/-- `MINFO`: sign and length to STATUS.MSIGN and STATUS.MUSED (R126). -/
def execMinfo (rs1 : RegField) (s : State) : Result :=
  whenLegal (.minfo rs1) s <|
    let m := s.mpAt (mIndex rs1)
    .next { s with msign := m.sign, mused := usedField m.used }

end Sys2Proof.Machine
end

