-- ==== Sys2Proof/Machine/System.lean ====
section
/-! DEFINITION. The system command (`46_system.md`). -/

namespace Sys2Proof.Machine

/-- `NOP` changes nothing (R240). -/
def execNop (s : State) : Result := .next s

end Sys2Proof.Machine
end

