-- ==== Sys2Proof/Machine/WordAddSub.lean ====
section
/-! DEFINITION. Word256 add and subtract (`42_word256_addsub.md`). -/

namespace Sys2Proof.Machine

/-- `WADD`: addition modulo 2^256, no signal (R160). -/
def execWadd (rd rs1 rs2 : RegField) (s : State) : Result := wordOp (.wadd rd rs1 rs2) wordAdd rd rs1 rs2 s

/-- `WSUB`: subtraction modulo 2^256, no signal (R161). -/
def execWsub (rd rs1 rs2 : RegField) (s : State) : Result := wordOp (.wsub rd rs1 rs2) wordSub rd rs1 rs2 s

end Sys2Proof.Machine
end

