-- ==== Sys2Proof/Machine/WordMul.lean ====
section
/-! DEFINITION. Word256 multiply and the product register (`43_word256_mul.md`). -/

namespace Sys2Proof.Machine

/-- `WMUL`: all 512 bits of the product to `P`, the low half to `rd`, and `rd`'s flag written both ways (R180). Overflow is
no fault. -/
def execWmul (rd rs1 rs2 : RegField) (s : State) : Result :=
  whenLegal (.wmul rd rs1 rs2) s <|
    let p := wordMul (s.wordAt (wIndex rs1)) (s.wordAt (wIndex rs2))
    .next ({ s with p := p }.setWord (wIndex rd) (lowHalf p) (mulOverflow p))

/-- `WMVPL`: the low half of `P` (R181). -/
def execWmvpl (rd : RegField) (s : State) : Result := moveHalf (.wmvpl rd) lowHalf rd s

/-- `WMVPH`: the high half of `P` (R182). -/
def execWmvph (rd : RegField) (s : State) : Result := moveHalf (.wmvph rd) highHalf rd s

end Sys2Proof.Machine
end

