-- ==== Sys2Proof/Machine/WordShiftLogic.lean ====
section
/-! DEFINITION. Word256 shifts and bitwise operations (`44_word256_shift_logic.md`). -/

namespace Sys2Proof.Machine

/-- `WSHL`: logical shift left, amounts of 256 and more give 0 (R200). -/
def execWshl (rd rs1 : RegField) (imm16 : ShiftAmount) (s : State) : Result :=
  shiftOp (.wshl rd rs1 imm16) wordShl rd rs1 imm16 s

/-- `WSHR`: logical shift right, amounts of 256 and more give 0 (R201). -/
def execWshr (rd rs1 : RegField) (imm16 : ShiftAmount) (s : State) : Result :=
  shiftOp (.wshr rd rs1 imm16) wordShr rd rs1 imm16 s

/-- `WAND` (R202). -/
def execWand (rd rs1 rs2 : RegField) (s : State) : Result := wordOp (.wand rd rs1 rs2) wordAnd rd rs1 rs2 s

/-- `WOR` (R203). -/
def execWor (rd rs1 rs2 : RegField) (s : State) : Result := wordOp (.wor rd rs1 rs2) wordOr rd rs1 rs2 s

/-- `WXOR` (R204). -/
def execWxor (rd rs1 rs2 : RegField) (s : State) : Result := wordOp (.wxor rd rs1 rs2) wordXor rd rs1 rs2 s

end Sys2Proof.Machine
end

