-- ==== Sys2Proof/Machine/Dispatch.lean ====
section
/-! DEFINITION. The meaning of every command, one arm per row of the opcode table (`30_encoding.md` R100). -/

namespace Sys2Proof.Machine

def exec (i : Instr) (s : State) : Host.Outcome State Fault Refusal :=
  match i with
  | .nop => Sys2Proof.Machine.execNop s
  | .wadd rd rs1 rs2 => Sys2Proof.Machine.execWadd rd rs1 rs2 s
  | .wsub rd rs1 rs2 => Sys2Proof.Machine.execWsub rd rs1 rs2 s
  | .wmul rd rs1 rs2 => Sys2Proof.Machine.execWmul rd rs1 rs2 s
  | .wand rd rs1 rs2 => Sys2Proof.Machine.execWand rd rs1 rs2 s
  | .wor rd rs1 rs2 => Sys2Proof.Machine.execWor rd rs1 rs2 s
  | .wxor rd rs1 rs2 => Sys2Proof.Machine.execWxor rd rs1 rs2 s
  | .wshl rd rs1 imm16 => Sys2Proof.Machine.execWshl rd rs1 imm16 s
  | .wshr rd rs1 imm16 => Sys2Proof.Machine.execWshr rd rs1 imm16 s
  | .wmvpl rd => Sys2Proof.Machine.execWmvpl rd s
  | .wmvph rd => Sys2Proof.Machine.execWmvph rd s
  | .wld r slot => Sys2Proof.Machine.execWld r slot s
  | .wst r slot => Sys2Proof.Machine.execWst r slot s
  | .mld r sign slot => Sys2Proof.Machine.execMld r sign slot s
  | .mst r slot => Sys2Proof.Machine.execMst r slot s
  | .madd rd rs1 rs2 => Sys2Proof.Machine.execMadd rd rs1 rs2 s
  | .msub rd rs1 rs2 => Sys2Proof.Machine.execMsub rd rs1 rs2 s
  | .mcmp rs1 rs2 => Sys2Proof.Machine.execMcmp rs1 rs2 s
  | .mcmpmag rs1 rs2 => Sys2Proof.Machine.execMcmpmag rs1 rs2 s
  | .minfo rs1 => Sys2Proof.Machine.execMinfo rs1 s

end Sys2Proof.Machine
end

