-- ==== Sys2Proof/Machine/HostInterface.lean ====
section
/-! DEFINITION. What each host operation does to the machine (`00_scope.md` R7, R8; `20_memory.md` R64 to R67;
`60_exceptions.md` R268). -/

namespace Sys2Proof.Machine

/-- A write of a command word (R33): dropped without decoding while STATUS.FAULT = 1 (R268); ILLEGAL_CMD if the word is no
command (R102, R261); otherwise the command executes. -/
def runCommand (c : Word) (s : State) : Result :=
  if s.fault then .next s
  else
    match decode c with
    | .error _ => .next (s.takeFault .illegalCmd c)
    | .ok i => exec i s

/-- One host operation (R8). Every one but the command write is allowed while the unit is faulted (R67, R301). -/
def perform (o : HostOp) (s : State) : Result :=
  match o with
  | .writeSB a b => .next (s.setByte a.toNat b)
  | .readSB a => .next { s with hostRead := some (.byte (s.byteAt a.toNat)) }
  | .cmd c => runCommand c s
  | .readCSR r => .next { s with hostRead := some (.word (csrWord s r)) }
  | .reset => .next s.softReset

/-- One access of the host: the operation it is (R66), or, if it is none, a write that changes nothing or a read that
returns 0 (R64). -/
def performAccess (x : HostAccess) (s : State) : Result :=
  match x with
  | .op o => perform o s
  | .windowWrite offset bytes value =>
    match writeOperation offset bytes value with
    | some o => perform o s
    | none => .next s
  | .windowRead offset bytes =>
    match readOperation offset bytes with
    | some o => perform o s
    | none => .next { s with hostRead := some (.zero bytes) }

/-- Take the host's next operation off the list and perform it; what the operation before it returned is gone. With no
operation left the run is over and nothing changes (R8, `notes/assumptions/2.md`). -/
def hostStep (s : State) : Result :=
  match s.pending with
  | [] => .next s
  | x :: rest => performAccess x { s with pending := rest, hostRead := none }

end Sys2Proof.Machine
end

