-- ==== Sys2Proof/Machine/Step.lean ====
section
/-! DEFINITION. One step of the machine is one host operation (`00_scope.md` R7, R8). -/

namespace Sys2Proof.Machine

/-- One step: the host's next operation, performed atomically (R7). -/
def step : State → Host.Outcome State Fault Refusal := fun s => hostStep s

/-- The state whose next host operation is the command write of the word `w` (R28, R33, `notes/assumptions/3.md`). -/
def State.withFetchWord (s : State) (nbits w : Nat) : State :=
  { s with pending := .op (.cmd (BitVec.ofNat 32 (w % 2 ^ nbits))) :: s.pending }

end Sys2Proof.Machine
end

