-- ==== Sys2Proof/Machine/Assembly.lean ====
section
/-! DEFINITION. The assembler's spelling of a command (`30_encoding.md` R105) and the two pseudo-instructions (R106). No
rule of the machine reads it. -/

namespace Sys2Proof

/-- `w0` to `w7` (R105). -/
def asmW (f : RegField) : String := "w" ++ toString f.toNat
/-- `m0` to `m3` (R105). -/
def asmM (f : RegField) : String := "m" ++ toString f.toNat
/-- `#n`, the shift amount in decimal (R105). -/
def asmImm (n : ShiftAmount) : String := "#" ++ toString n.toNat
/-- `[n]`, the slot index in decimal (R105). -/
def asmSlot (slot : SlotField) : String := "[" ++ toString slot.toNat ++ "]"
/-- `+` or `-`, the `s` bit of `MLD` (R105). -/
def asmSign (s : Bool) : String := if s then "-" else "+"

/-- A mnemonic and its operands, destination first, separated by commas (R105). -/
def asmLine (mnemonic : String) (operands : List String) : String :=
  if operands.isEmpty then mnemonic else mnemonic ++ " " ++ ", ".intercalate operands

/-- The one assembly line of a command (R105). -/
def assembly : Instr → String
  | .nop => asmLine "NOP" []
  | .wadd rd rs1 rs2 => asmLine "WADD" [asmW rd, asmW rs1, asmW rs2]
  | .wsub rd rs1 rs2 => asmLine "WSUB" [asmW rd, asmW rs1, asmW rs2]
  | .wmul rd rs1 rs2 => asmLine "WMUL" [asmW rd, asmW rs1, asmW rs2]
  | .wand rd rs1 rs2 => asmLine "WAND" [asmW rd, asmW rs1, asmW rs2]
  | .wor rd rs1 rs2 => asmLine "WOR" [asmW rd, asmW rs1, asmW rs2]
  | .wxor rd rs1 rs2 => asmLine "WXOR" [asmW rd, asmW rs1, asmW rs2]
  | .wshl rd rs1 imm16 => asmLine "WSHL" [asmW rd, asmW rs1, asmImm imm16]
  | .wshr rd rs1 imm16 => asmLine "WSHR" [asmW rd, asmW rs1, asmImm imm16]
  | .wmvpl rd => asmLine "WMVPL" [asmW rd]
  | .wmvph rd => asmLine "WMVPH" [asmW rd]
  | .wld r slot => asmLine "WLD" [asmW r, asmSlot slot]
  | .wst r slot => asmLine "WST" [asmW r, asmSlot slot]
  | .mld r s slot => asmLine "MLD" [asmM r, asmSlot slot, asmSign s]
  | .mst r slot => asmLine "MST" [asmM r, asmSlot slot]
  | .madd rd rs1 rs2 => asmLine "MADD" [asmM rd, asmM rs1, asmM rs2]
  | .msub rd rs1 rs2 => asmLine "MSUB" [asmM rd, asmM rs1, asmM rs2]
  | .mcmp rs1 rs2 => asmLine "MCMP" [asmM rs1, asmM rs2]
  | .mcmpmag rs1 rs2 => asmLine "MCMPMAG" [asmM rs1, asmM rs2]
  | .minfo rs1 => asmLine "MINFO" [asmM rs1]

/-- `WMOV wd, ws` is `WOR wd, ws, ws` (R106). -/
def wmov (wd ws : RegField) : Instr := .wor wd ws ws

/-- `WZERO wd` is `WXOR wd, wd, wd` (R106). -/
def wzero (wd : RegField) : Instr := .wxor wd wd wd

end Sys2Proof
end

