-- ==== Sys2Proof/Safety.lean ====
section
/-! DEFINITION. The terms in which the claims speak: what an operation leaves unchanged, what a fault records, and the
invariant of every reachable state. -/

namespace Sys2Proof.Machine

/-! ## Operands by index -/

/-- The register field of Word256 register `i` (R92): every legal field of a Word256 operand is one of these eight. -/
def wField (i : Fin 8) : RegField := BitVec.ofNat 4 i.val

/-- The register field of MPInt register `i` (R92): every legal field of an MPInt operand is one of these four. -/
def mField (i : Fin 4) : RegField := BitVec.ofNat 4 i.val

/-- The Word256 register a command writes, if it writes one (R23). -/
def wordDestination : Instr → Option (Fin 8)
  | .wadd rd _ _ => some (wIndex rd)
  | .wsub rd _ _ => some (wIndex rd)
  | .wmul rd _ _ => some (wIndex rd)
  | .wand rd _ _ => some (wIndex rd)
  | .wor rd _ _ => some (wIndex rd)
  | .wxor rd _ _ => some (wIndex rd)
  | .wshl rd _ _ => some (wIndex rd)
  | .wshr rd _ _ => some (wIndex rd)
  | .wmvpl rd => some (wIndex rd)
  | .wmvph rd => some (wIndex rd)
  | .wld r _ => some (wIndex r)
  | .nop => none
  | .wst _ _ => none
  | .mld _ _ _ => none
  | .mst _ _ => none
  | .madd _ _ _ => none
  | .msub _ _ _ => none
  | .mcmp _ _ => none
  | .mcmpmag _ _ => none
  | .minfo _ => none

/-- The MPInt register a command may write (R27). -/
def mpDestination : Instr → Option (Fin 4)
  | .mld r _ _ => some (mIndex r)
  | .madd rd _ _ => some (mIndex rd)
  | .msub rd _ _ => some (mIndex rd)
  | .nop => none
  | .wadd _ _ _ => none
  | .wsub _ _ _ => none
  | .wmul _ _ _ => none
  | .wand _ _ _ => none
  | .wor _ _ _ => none
  | .wxor _ _ _ => none
  | .wshl _ _ _ => none
  | .wshr _ _ _ => none
  | .wmvpl _ => none
  | .wmvph _ => none
  | .wld _ _ => none
  | .wst _ _ => none
  | .mst _ _ => none
  | .mcmp _ _ => none
  | .mcmpmag _ _ => none
  | .minfo _ => none

/-- The slot a command may write (R39). -/
def slotDestination : Instr → Option SlotField
  | .wst _ slot => some slot
  | .mst _ slot => some slot
  | .nop => none
  | .wadd _ _ _ => none
  | .wsub _ _ _ => none
  | .wmul _ _ _ => none
  | .wand _ _ _ => none
  | .wor _ _ _ => none
  | .wxor _ _ _ => none
  | .wshl _ _ _ => none
  | .wshr _ _ _ => none
  | .wmvpl _ => none
  | .wmvph _ => none
  | .wld _ _ => none
  | .mld _ _ _ => none
  | .madd _ _ _ => none
  | .msub _ _ _ => none
  | .mcmp _ _ => none
  | .mcmpmag _ _ => none
  | .minfo _ => none

/-- The execution fault a legal command raises in a state, by the three lines of R260 that are not ILLEGAL_CMD. -/
def faultRaised : Instr → State → Option FaultCause
  | .madd _ rs1 rs2, s =>
    if (val (s.mpAt (mIndex rs1)) + val (s.mpAt (mIndex rs2))).natAbs ≥ 2 ^ 280 then some .mpCapacity else none
  | .msub _ rs1 rs2, s =>
    if (val (s.mpAt (mIndex rs1)) - val (s.mpAt (mIndex rs2))).natAbs ≥ 2 ^ 280 then some .mpCapacity else none
  | .mst r _, s => if mag (s.mpAt (mIndex r)) ≥ 2 ^ 256 then some .narrowOverflow else none
  | .nop, _ => none
  | .wadd _ _ _, _ => none
  | .wsub _ _ _, _ => none
  | .wmul _ _ _, _ => none
  | .wand _ _ _, _ => none
  | .wor _ _ _, _ => none
  | .wxor _ _ _, _ => none
  | .wshl _ _ _, _ => none
  | .wshr _ _ _, _ => none
  | .wmvpl _, _ => none
  | .wmvph _, _ => none
  | .wld _ _, _ => none
  | .wst _ _, _ => none
  | .mld _ _ _, _ => none
  | .mcmp _ _, _ => none
  | .mcmpmag _ _, _ => none
  | .minfo _, _ => none

/-- One command after another: the second runs in the state the first answers. -/
def thenDo (r : Result) (f : State → Result) : Result :=
  match r with
  | .next t => f t
  | .fault e => .fault e
  | .refused e => .refused e

/-! ## What is left unchanged -/

/-- Every Word256 register but `d`, with its flag, reads as before. -/
def SameWordsBut (d : Fin 8) (s t : State) : Prop := ∀ j, j ≠ d → t.wordAt j = s.wordAt j ∧ t.ovfAt j = s.ovfAt j

/-- Every Word256 register, with its flag, reads as before. -/
def SameWords (s t : State) : Prop := ∀ j, t.wordAt j = s.wordAt j ∧ t.ovfAt j = s.ovfAt j

/-- Every MPInt register but `d` reads as before. -/
def SameMpsBut (d : Fin 4) (s t : State) : Prop := ∀ j, j ≠ d → t.mpAt j = s.mpAt j

/-- Every MPInt register reads as before. -/
def SameMps (s t : State) : Prop := ∀ j, t.mpAt j = s.mpAt j

/-- Every byte of the slot buffer reads as before. -/
def SameBytes (s t : State) : Prop := ∀ a, t.byteAt a = s.byteAt a

/-- Every byte of the slot buffer outside the 32 bytes of the slot reads as before. -/
def SameBytesOutside (slot : SlotField) (s t : State) : Prop :=
  ∀ a, ¬ (slotAddress slot ≤ a ∧ a < slotAddress slot + 32) → t.byteAt a = s.byteAt a

/-- The product register is as before. -/
def SameProduct (s t : State) : Prop := t.p = s.p

/-- STATUS.MSIGN and STATUS.MUSED are as before. -/
def SameInfo (s t : State) : Prop := t.msign = s.msign ∧ t.mused = s.mused

/-- STATUS.CMP, STATUS.MSIGN and STATUS.MUSED are as before. -/
def SameStatus (s t : State) : Prop := t.cmp = s.cmp ∧ SameInfo s t

/-- STATUS.FAULT, FCAUSE, FCMD and FINFO are as before. -/
def SameFaultRecord (s t : State) : Prop :=
  t.fault = s.fault ∧ t.fcause = s.fcause ∧ t.fcmd = s.fcmd ∧ t.finfo = s.finfo

/-- The host's side, which no command touches, is as before. -/
def SameHost (s t : State) : Prop := t.pending = s.pending ∧ t.hostRead = s.hostRead

/-- Everything but Word256 register `d` is as before. -/
def OnlyWord (d : Fin 8) (s t : State) : Prop :=
  SameWordsBut d s t ∧ SameProduct s t ∧ SameMps s t ∧ SameBytes s t ∧ SameStatus s t ∧ SameFaultRecord s t ∧ SameHost s t

/-- Everything but MPInt register `d` is as before. -/
def OnlyMp (d : Fin 4) (s t : State) : Prop :=
  SameWords s t ∧ SameProduct s t ∧ SameMpsBut d s t ∧ SameBytes s t ∧ SameStatus s t ∧ SameFaultRecord s t ∧ SameHost s t

/-- Everything but the 32 bytes of the slot is as before. -/
def OnlySlot (slot : SlotField) (s t : State) : Prop :=
  SameWords s t ∧ SameProduct s t ∧ SameMps s t ∧ SameBytesOutside slot s t ∧ SameStatus s t ∧ SameFaultRecord s t ∧
    SameHost s t

/-- Everything but the fault record is as before: what a precise fault leaves (R264). -/
def OnlyFaultRecord (s t : State) : Prop :=
  SameWords s t ∧ SameProduct s t ∧ SameMps s t ∧ SameBytes s t ∧ SameStatus s t ∧ SameHost s t

/-- Two states that may differ in the overflow flags and in nothing else. -/
def EqualButFlags (s t : State) : Prop :=
  (∀ j, t.wordAt j = s.wordAt j) ∧ t.p = s.p ∧ t.m = s.m ∧ t.sb = s.sb ∧ SameStatus s t ∧ SameFaultRecord s t ∧ SameHost s t

/-- Every piece of the unit's state (R20) is as before; the host's side may differ. -/
def SameUnit (s t : State) : Prop :=
  SameWords s t ∧ SameProduct s t ∧ SameMps s t ∧ SameBytes s t ∧ SameStatus s t ∧ SameFaultRecord s t

/-! ## What a fault records -/

/-- The fault record that R264 leaves: the cause, its information word (R260) and the command word. -/
def Recorded (cause : FaultCause) (info : Nat) (command : Word) (t : State) : Prop :=
  t.fault = true ∧ t.fcause = cause ∧ t.fcmd = command ∧ t.finfo = BitVec.ofNat 32 info

/-- The recorded word is one whose execution can raise the recorded cause (R260, R267). -/
def explains (cause : FaultCause) (command : Word) : Bool :=
  match cause, decode command with
  | .illegalCmd, .error _ => true
  | .mpCapacity, .ok (.madd _ _ _) => true
  | .mpCapacity, .ok (.msub _ _ _) => true
  | .narrowOverflow, .ok (.mst _ _) => true
  | _, _ => false

/-- The fault registers of R36 to R38: all 0 while STATUS.FAULT = 0, and the record of one of the three faults of R260
while it is 1. -/
def faultRecordOk (s : State) : Bool :=
  if s.fault then explains s.fcause s.fcmd && decide (s.finfo = causeInfo s.fcause)
  else decide (s.fcause = .none ∧ s.fcmd = 0 ∧ s.finfo = 0)

/-! ## The invariant -/

/-- What holds of every state a run reaches: R27 for every MPInt register, the canonical form and the range of the slot
buffer (R39), the fault registers (R36 to R38), and MUSED at most 10 (R126). -/
def State.inv (s : State) : Bool :=
  (List.finRange 4).all (fun i => normalized (s.mpAt i)) &&
  Memory.wf s.sb && Memory.inBuffer s.sb && faultRecordOk s && decide (s.mused.toNat ≤ Config.mpCap)

/-! ## Runs -/

/-- The operation of R8 that an access of the host is, if it is one (R64, R66). -/
def operationOf : HostAccess → Option HostOp
  | .op o => some o
  | .windowWrite offset bytes value => writeOperation offset bytes value
  | .windowRead offset bytes => readOperation offset bytes

/-- The operation that the next step performs, if any. -/
def nextOperation (s : State) : Option HostOp := s.pending.head?.bind operationOf

/-- The next host access of the state is `x`. -/
def nextAccess (x : HostAccess) (rest : List HostAccess) (s : State) : State := { s with pending := x :: rest }

/-- The next host operation of the state is the command write of `c` (R33). -/
def nextCommand (c : Word) (rest : List HostAccess) (s : State) : State := { s with pending := .op (.cmd c) :: rest }

/-- The state in which a step performs the operation at the head of the list: the operation is taken off, and what the
operation before it returned is gone. -/
def performing (rest : List HostAccess) (s : State) : State := { s with pending := rest, hostRead := none }

end Sys2Proof.Machine
end

