-- ==== Sys2Proof/Certificates/Slice0/Obligations.lean ====
section
/-! DEFINITION. The statements about the MLA unit that the provers settle. `W` and `M` registers are quantified by index
(`Fin 8`, `Fin 4`): `wField` and `mField` give every legal register field (R92), and the illegal ones have a statement of
their own (`IllFormedCommandIsIllegal`). -/

open Sys2Proof Sys2Proof.Machine

/-! ## Encoding -/

/-- R107, which the spec derives from R91, R100 and R102: the worked encodings, and the examples of illegal words. -/
def Obligations.WorkedEncodingsDecode : Prop :=
  decode 0x00000000#32 = .ok .nop ∧
  decode 0x10201000#32 = .ok (.wadd 2 0 1) ∧
  decode 0x11777000#32 = .ok (.wsub 7 7 7) ∧
  decode 0x12201000#32 = .ok (.wmul 2 0 1) ∧
  decode 0x16100011#32 = .ok (.wshl 1 0 17) ∧
  decode 0x17330100#32 = .ok (.wshr 3 3 256) ∧
  decode 0x19400000#32 = .ok (.wmvph 4) ∧
  decode 0x20000003#32 = .ok (.wld 0 3) ∧
  decode 0x2150000F#32 = .ok (.wst 5 15) ∧
  decode 0x22110002#32 = .ok (.mld 1 true 2) ∧
  decode 0x23300000#32 = .ok (.mst 3 0) ∧
  decode 0x30201000#32 = .ok (.madd 2 0 1) ∧
  decode 0x32001000#32 = .ok (.mcmp 0 1) ∧
  decode 0x34020000#32 = .ok (.minfo 2) ∧
  (∀ c ∈ [0x01000000#32, 0x10801000#32, 0x10201001#32, 0x30401000#32, 0x20010003#32, 0x20000010#32, 0x32101000#32,
    0x00000001#32], ∃ e, decode c = .error e)

/-- R91, R92, R100: the word of every legal command decodes to that command, with every operand at every value. -/
def Obligations.DecodeOfEncodeGivesCommand : Prop :=
  ∀ i : Instr, i.wellFormed = true → decode (encode i) = .ok i

/-- R91, R100, R101: a word that decodes has legal operands and is the word of what it decodes to: no bit is dropped. -/
def Obligations.EncodeOfDecodeGivesWord : Prop :=
  ∀ (c : Word) (i : Instr), decode c = .ok i → i.wellFormed = true ∧ encode i = c

/-- R101: the decoder is the opcode map of R100 read by mask and match; at most one row matches; with none, the word is
illegal. -/
def Obligations.DecodeFollowsOpcodeMap : Prop :=
  (∀ (c : Word) (i : Instr), decode c = .ok i ↔ ∃ row ∈ opcodeMap, row.hits c = true ∧ row.fields c = i) ∧
  (∀ (c : Word), ∀ r₁ ∈ opcodeMap, ∀ r₂ ∈ opcodeMap, r₁.hits c = true → r₂.hits c = true → r₁.mnemonic = r₂.mnemonic) ∧
  (∀ c : Word, (∀ row ∈ opcodeMap, row.hits c = false) → ∃ e, decode c = .error e)

/-- R92: a register index out of range makes the word an illegal command. The meaning of a command that was never
decoded is the model's choice (`notes/assumptions/4.md`): it takes the ILLEGAL_CMD entry. -/
def Obligations.IllFormedCommandIsIllegal : Prop :=
  ∀ (i : Instr) (s : State), i.wellFormed = false →
    decode (encode i) = .error .registerIndex ∧
    ∃ t, exec i s = .next t ∧ Recorded .illegalCmd 0 (encode i) t ∧ OnlyFaultRecord s t

/-- R106, which the spec derives from R203 and R204: the pseudo-instructions are commands of the map with the effect the
rule gives. -/
def Obligations.PseudoInstructionEffects : Prop :=
  ∀ (d a : Fin 8) (s : State),
    wmov (wField d) (wField a) = .wor (wField d) (wField a) (wField a) ∧
    wzero (wField d) = .wxor (wField d) (wField d) (wField d) ∧
    (∃ t, exec (wmov (wField d) (wField a)) s = .next t ∧ t.wordAt d = s.wordAt a ∧ t.ovfAt d = false ∧ OnlyWord d s t) ∧
    (∃ t, exec (wzero (wField d)) s = .next t ∧ t.wordAt d = 0 ∧ t.ovfAt d = false ∧ OnlyWord d s t)

/-! ## One step -/

/-- R7, R33: when the host's next operation writes a word that decodes, and the unit is not faulted, the step is the
command's meaning, in the state with that operation taken off the list and no value returned. -/
def Obligations.StepRunsDecodedCommand : Prop :=
  ∀ (s : State) (rest : List HostAccess) (c : Word) (i : Instr), s.fault = false → decode c = .ok i →
    step (nextCommand c rest s) = exec i (performing rest s) ∧
    step (s.withFetchWord 32 c.toNat) = exec i (performing s.pending s)

/-- R102: a word that matches no row raises ILLEGAL_CMD and changes nothing else. -/
def Obligations.UnmatchedWordRaisesIllegalCmd : Prop :=
  ∀ (s : State) (rest : List HostAccess) (c : Word), s.fault = false → (∀ row ∈ opcodeMap, row.hits c = false) →
    ∃ t, step (nextCommand c rest s) = .next t ∧ Recorded .illegalCmd 0 c t ∧ OnlyFaultRecord (performing rest s) t

/-- R7 and `93_implementation_defined.md` section 2 ("for every state and every 32-bit word, the rules give exactly one
next state"): the machine never stops. With no host operation left it stays as it is: that is the model's choice
(`notes/assumptions/2.md`). -/
def Obligations.StepAlwaysAnswers : Prop :=
  (∀ s : State, ∃ t, step s = .next t) ∧ (∀ (i : Instr) (s : State), ∃ t, exec i s = .next t)

/-! ## The host's interface -/

/-- R67 (and R8, R65): every host operation that is not a command has its effect at all times, faulted or not. -/
def Obligations.HostAccessAllowedAtAllTimes : Prop :=
  ∀ (s : State) (rest : List HostAccess),
    (∀ (a : BitVec 9) (b : Byte), Memory.wf s.sb = true →
      ∃ t, step (nextAccess (.op (.writeSB a b)) rest s) = .next t ∧ t.byteAt a.toNat = b ∧
        (∀ a', a' ≠ a.toNat → t.byteAt a' = s.byteAt a') ∧ SameWords s t ∧ SameProduct s t ∧ SameMps s t ∧
        SameStatus s t ∧ SameFaultRecord s t ∧ t.pending = rest ∧ t.hostRead = none) ∧
    (∀ a : BitVec 9, ∃ t, step (nextAccess (.op (.readSB a)) rest s) = .next t ∧
      t.hostRead = some (.byte (s.byteAt a.toNat)) ∧ SameUnit s t ∧ t.pending = rest) ∧
    (∀ r : Csr, ∃ t, step (nextAccess (.op (.readCSR r)) rest s) = .next t ∧
      t.hostRead = some (.word (csrWord s r)) ∧ SameUnit s t ∧ t.pending = rest)

/-- R66, and R34 for a write to CTRL with bit 0 = 0: which access of the window is which host operation. A number wider
than the access is taken by its low bits: that is the model's choice (`notes/assumptions/9.md`). -/
def Obligations.WindowAddressMap : Prop :=
  ∀ (s : State) (rest : List HostAccess) (v : Nat),
    (∀ a, a < 512 →
      step (nextAccess (.windowWrite a 1 v) rest s) =
        step (nextAccess (.op (.writeSB (BitVec.ofNat 9 a) (BitVec.ofNat 8 v))) rest s) ∧
      step (nextAccess (.windowRead a 1) rest s) = step (nextAccess (.op (.readSB (BitVec.ofNat 9 a))) rest s)) ∧
    step (nextAccess (.windowWrite 0x200 4 v) rest s) = step (nextAccess (.op (.cmd (BitVec.ofNat 32 v))) rest s) ∧
    step (nextAccess (.windowRead 0x204 4) rest s) = step (nextAccess (.op (.readCSR .status)) rest s) ∧
    step (nextAccess (.windowRead 0x208 4) rest s) = step (nextAccess (.op (.readCSR .fcause)) rest s) ∧
    step (nextAccess (.windowRead 0x20C 4) rest s) = step (nextAccess (.op (.readCSR .fcmd)) rest s) ∧
    step (nextAccess (.windowRead 0x210 4) rest s) = step (nextAccess (.op (.readCSR .finfo)) rest s) ∧
    (v % 2 = 1 → step (nextAccess (.windowWrite 0x214 4 v) rest s) = step (nextAccess (.op .reset) rest s)) ∧
    (v % 2 = 0 → step (nextAccess (.windowWrite 0x214 4 v) rest s) = .next (performing rest s))

/-- R64: a memory command's address is a multiple of 32 inside the buffer, and a host access that is none of R66 changes
nothing, returns 0 if it reads, and takes no fault. -/
def Obligations.StrayAccessesHaveNoEffect : Prop :=
  (∀ slot : SlotField, slotAddress slot = 32 * slot.toNat ∧ slotAddress slot % 32 = 0 ∧ slotAddress slot + 31 < 512) ∧
  ∀ (s : State) (rest : List HostAccess) (offset bytes v : Nat), ¬ (bytes = 1 ∧ offset < 512) →
    (¬ (bytes = 4 ∧ (offset = 0x200 ∨ offset = 0x214)) →
      ∃ t, step (nextAccess (.windowWrite offset bytes v) rest s) = .next t ∧ SameUnit s t ∧ t.pending = rest ∧
        t.hostRead = none) ∧
    (¬ (bytes = 4 ∧ (offset = 0x204 ∨ offset = 0x208 ∨ offset = 0x20C ∨ offset = 0x210)) →
      ∃ t r, step (nextAccess (.windowRead offset bytes) rest s) = .next t ∧ SameUnit s t ∧ t.pending = rest ∧
        t.hostRead = some r ∧ r.toNat = 0)

/-- R35: the layout of the STATUS word, WOVF a view of the eight flags, reserved fields 0. -/
def Obligations.StatusWordLayout : Prop :=
  ∀ s : State,
    (statusWord s).getLsbD 0 = s.fault ∧
    (statusWord s).extractLsb' 1 2 = (match s.cmp with | .eq => 0#2 | .lt => 1#2 | .gt => 2#2) ∧
    (statusWord s).getLsbD 3 = s.msign ∧
    (statusWord s).extractLsb' 4 4 = 0 ∧
    (statusWord s).extractLsb' 8 8 = s.mused ∧
    (∀ i : Fin 8, (statusWord s).getLsbD (16 + i.val) = s.ovfAt i) ∧
    (statusWord s).extractLsb' 24 8 = 0

/-- R36, R37, R38: what the three fault registers read as, in a state with a sound fault record (every reachable state:
`StepKeepsInvariant`). -/
def Obligations.FaultRegisterContents : Prop :=
  ∀ s : State, faultRecordOk s = true →
    (s.fault = false → csrWord s .fcause = 0 ∧ csrWord s .fcmd = 0 ∧ csrWord s .finfo = 0) ∧
    (s.fault = true →
      ((csrWord s .fcause = 1#32 ∧ csrWord s .finfo = 0#32 ∧ ∃ e, decode (csrWord s .fcmd) = .error e) ∨
       (csrWord s .fcause = 2#32 ∧ csrWord s .finfo = 280#32 ∧
         ∃ rd a b, decode (csrWord s .fcmd) = .ok (.madd rd a b) ∨ decode (csrWord s .fcmd) = .ok (.msub rd a b)) ∨
       (csrWord s .fcause = 3#32 ∧ csrWord s .finfo = 256#32 ∧ ∃ r slot, decode (csrWord s .fcmd) = .ok (.mst r slot))))

/-! ## Reset -/

/-- R41: the value of every piece of state after reset, hard (`State.reset`) or soft. -/
def Obligations.ResetValues : Prop :=
  ∀ t : State, (t = State.reset ∨ ∃ s : State, t = s.softReset) →
    (∀ i : Fin 8, (∀ j : Nat, limb (t.wordAt i) j = 0) ∧ t.ovfAt i = false) ∧
    (∀ j : Nat, productLimb t.p j = 0) ∧
    (∀ i : Fin 4, (t.mpAt i).sign = false ∧ (t.mpAt i).used = 0 ∧ ∀ k : Nat, digitAt (t.mpAt i).dp k = 0) ∧
    (∀ a : Nat, t.byteAt a = 0) ∧
    t.fault = false ∧ t.cmp = .eq ∧ t.msign = false ∧ t.mused = 0 ∧
    csrWord t .status = 0 ∧ csrWord t .fcause = 0 ∧ csrWord t .fcmd = 0 ∧ csrWord t .finfo = 0

/-- R301: a soft reset, taken in any state, faulted or not, gives every piece of the unit's state its value of hard
reset, and nothing else clears a fault. A number wider than the 32 bits of the write to CTRL is taken by its low bits: that is
the model's choice (`notes/assumptions/9.md`). -/
def Obligations.SoftResetLeavesResetState : Prop :=
  (∀ (s : State) (rest : List HostAccess),
    (∃ t, step (nextAccess (.op .reset) rest s) = .next t ∧ SameUnit State.reset t) ∧
    ∀ v, v % 2 = 1 → ∃ t, step (nextAccess (.windowWrite 0x214 4 v) rest s) = .next t ∧ SameUnit State.reset t) ∧
  (∀ s t : State, s.fault = true → step s = .next t → t.fault = false → nextOperation s = some .reset)

/-! ## Invariants and whole-machine rules -/

/-- R27, R41: the invariant holds right after reset. -/
def Obligations.InvariantHoldsAtReset : Prop := State.reset.inv = true

/-- R27 (with R36 to R39, R126): every step keeps the invariant: every MPInt register normalized, zero non-negative,
with a clean tail; the slot buffer in canonical form and inside its 512 bytes; the fault record sound; MUSED at most 10.
-/
def Obligations.StepKeepsInvariant : Prop :=
  ∀ s t : State, s.inv = true → step s = .next t → t.inv = true

/-- R268: while STATUS.FAULT = 1 a command write changes nothing at all, and whatever the next operation is, the fault
record keeps the first fault and every register its value unless it is a reset, and a slot byte can change only by a
host write to it or by a reset. -/
def Obligations.FaultedUnitDropsCommands : Prop :=
  (∀ (s : State) (rest : List HostAccess) (c : Word), s.fault = true →
    step (nextCommand c rest s) = .next (performing rest s)) ∧
  (∀ s t : State, s.fault = true → step s = .next t → nextOperation s ≠ some .reset →
    SameFaultRecord s t ∧ SameWords s t ∧ SameProduct s t ∧ SameMps s t ∧ SameStatus s t ∧
    ∀ a, t.byteAt a ≠ s.byteAt a → ∃ x b, nextOperation s = some (.writeSB x b) ∧ x.toNat = a)

/-- R269: only reset clears STATUS.FAULT, and it clears everything; while the unit is faulted no second fault is
recorded. -/
def Obligations.OnlyResetClearsFault : Prop :=
  ∀ s t : State, s.fault = true → step s = .next t →
    (t.fault = false → nextOperation s = some .reset ∧ SameUnit State.reset t) ∧
    (t.fault = true → SameFaultRecord s t)

/-- R260, R264, R267: of the legal commands only `MADD`, `MSUB` and `MST` can fault, exactly when their result does not
fit; a fault writes the four fault fields, with the cause, the width and the command word, and nothing else; every other
command leaves the fault record alone. A word that matches no row raises ILLEGAL_CMD. -/
def Obligations.FaultsAreExactlyThoseListed : Prop :=
  (∀ (i : Instr) (s : State), i.wellFormed = true →
    match faultRaised i s with
    | none => ∃ t, exec i s = .next t ∧ SameFaultRecord s t
    | some .mpCapacity => ∃ t, exec i s = .next t ∧ Recorded .mpCapacity 280 (encode i) t ∧ OnlyFaultRecord s t
    | some .narrowOverflow => ∃ t, exec i s = .next t ∧ Recorded .narrowOverflow 256 (encode i) t ∧ OnlyFaultRecord s t
    | some .illegalCmd => False
    | some .none => False) ∧
  (∀ (c : Word) (s : State), s.fault = false → (∀ row ∈ opcodeMap, row.hits c = false) →
    ∃ t, runCommand c s = .next t ∧ Recorded .illegalCmd 0 c t ∧ OnlyFaultRecord s t) ∧
  causeCode .illegalCmd = 1 ∧ causeCode .mpCapacity = 2 ∧ causeCode .narrowOverflow = 3 ∧ causeCode .none = 0

/-- R309, which the spec derives from R25: `P` is the product of the most recent `WMUL`, and no other command changes
it. -/
def Obligations.ProductRegisterHoldsLastProduct : Prop :=
  ∀ (i : Instr) (s t : State), exec i s = .next t →
    (∀ rd a b, i = .wmul rd a b → i.wellFormed = true →
      t.p.toNat = (s.wordAt (wIndex a)).toNat * (s.wordAt (wIndex b)).toNat) ∧
    ((∀ rd a b, i ≠ .wmul rd a b) → t.p = s.p)

/-- R22: a command writes the overflow flag of the register it writes, `WMUL` to its verdict and every other command to
0, and no other flag; reset clears them all. -/
def Obligations.OverflowFlagWrites : Prop :=
  (∀ (i : Instr) (s t : State), i.wellFormed = true → exec i s = .next t →
    (∀ j, wordDestination i ≠ some j → t.ovfAt j = s.ovfAt j) ∧
    (∀ rd a b, i = .wmul rd a b →
      t.ovfAt (wIndex rd) = decide (2 ^ 256 ≤ (s.wordAt (wIndex a)).toNat * (s.wordAt (wIndex b)).toNat)) ∧
    (∀ j, wordDestination i = some j → (∀ rd a b, i ≠ .wmul rd a b) → t.ovfAt j = false)) ∧
  (∀ (s : State) (j : Fin 8), s.softReset.ovfAt j = false)

/-- R22, R29: no command's result depends on any overflow flag: from two states that differ in the flags alone, a
command leads to two states that differ in the flags alone, and a register it writes gets the same flag in both. -/
def Obligations.NoCommandReadsOverflowFlags : Prop :=
  ∀ (i : Instr) (s s' t : State), EqualButFlags s s' → exec i s = .next t →
    ∃ t', exec i s' = .next t' ∧ EqualButFlags t t' ∧
      (i.wellFormed = true → ∀ j, wordDestination i = some j → t'.ovfAt j = t.ovfAt j)

/-- R310, which the spec derives from R35: STATUS.CMP, MSIGN and MUSED are snapshots: only `MCMP` and `MCMPMAG` write
the first, only `MINFO` the others. -/
def Obligations.StatusFieldsAreSnapshots : Prop :=
  ∀ (i : Instr) (s t : State), exec i s = .next t →
    ((∀ a b, i ≠ .mcmp a b) → (∀ a b, i ≠ .mcmpmag a b) → t.cmp = s.cmp) ∧
    ((∀ a, i ≠ .minfo a) → SameInfo s t)

/-- R23, R24, R27, R39: a command changes no register and no slot but its destination: of the Word256 file, the MPInt
file and the slot buffer, everything else reads as before. -/
def Obligations.CommandChangesOnlyItsDestination : Prop :=
  ∀ (i : Instr) (s t : State), exec i s = .next t →
    (∀ j, wordDestination i ≠ some j → t.wordAt j = s.wordAt j) ∧
    (∀ j, mpDestination i ≠ some j → t.mpAt j = s.mpAt j) ∧
    (∀ a, (∀ slot, slotDestination i = some slot → ¬ (slotAddress slot ≤ a ∧ a < slotAddress slot + 32)) →
      t.byteAt a = s.byteAt a) ∧
    SameHost s t

/-! ## Results, one statement per command or pair of one shape -/

/-- R240: `NOP` changes no state, faulted or not, and 0 is its only word. -/
def Obligations.NopChangesNothing : Prop :=
  decode 0x00000000#32 = .ok .nop ∧ (∀ c, decode c = .ok .nop → c = 0x00000000#32) ∧
  (∀ s : State, exec .nop s = .next s) ∧ (∀ s : State, runCommand 0x00000000#32 s = .next s)

/-- R160: `WADD`. -/
def Obligations.WaddAddsModuloTwoPow256 : Prop :=
  ∀ (d a b : Fin 8) (s : State),
    decode (0x10#8 ++ wField d ++ wField a ++ wField b ++ 0#12) = .ok (.wadd (wField d) (wField a) (wField b)) ∧
    ∃ t, exec (.wadd (wField d) (wField a) (wField b)) s = .next t ∧
      (t.wordAt d).toNat = ((s.wordAt a).toNat + (s.wordAt b).toNat) % 2 ^ 256 ∧ t.ovfAt d = false ∧ OnlyWord d s t

/-- R161: `WSUB`. -/
def Obligations.WsubSubtractsModuloTwoPow256 : Prop :=
  ∀ (d a b : Fin 8) (s : State),
    decode (0x11#8 ++ wField d ++ wField a ++ wField b ++ 0#12) = .ok (.wsub (wField d) (wField a) (wField b)) ∧
    ∃ t, exec (.wsub (wField d) (wField a) (wField b)) s = .next t ∧
      ((t.wordAt d).toNat : Int) = (((s.wordAt a).toNat : Int) - ((s.wordAt b).toNat : Int)) % 2 ^ 256 ∧
      t.ovfAt d = false ∧ OnlyWord d s t

/-- R180: `WMUL`. -/
def Obligations.WmulWritesFullProduct : Prop :=
  ∀ (d a b : Fin 8) (s : State),
    decode (0x12#8 ++ wField d ++ wField a ++ wField b ++ 0#12) = .ok (.wmul (wField d) (wField a) (wField b)) ∧
    ∃ t, exec (.wmul (wField d) (wField a) (wField b)) s = .next t ∧
      t.p.toNat = (s.wordAt a).toNat * (s.wordAt b).toNat ∧
      (t.wordAt d).toNat = (s.wordAt a).toNat * (s.wordAt b).toNat % 2 ^ 256 ∧
      t.ovfAt d = decide ((s.wordAt a).toNat * (s.wordAt b).toNat / 2 ^ 256 ≠ 0) ∧
      SameWordsBut d s t ∧ SameMps s t ∧ SameBytes s t ∧ SameStatus s t ∧ SameFaultRecord s t ∧ SameHost s t

/-- R181, R182: `WMVPL` and `WMVPH`. -/
def Obligations.MoveCommandsCopyProductHalves : Prop :=
  ∀ (d : Fin 8) (s : State),
    (decode (0x18#8 ++ wField d ++ 0#20) = .ok (.wmvpl (wField d)) ∧
      ∃ t, exec (.wmvpl (wField d)) s = .next t ∧ (t.wordAt d).toNat = s.p.toNat % 2 ^ 256 ∧ t.ovfAt d = false ∧
        (∀ j < 4, limb (t.wordAt d) j = productLimb s.p j) ∧ OnlyWord d s t) ∧
    (decode (0x19#8 ++ wField d ++ 0#20) = .ok (.wmvph (wField d)) ∧
      ∃ t, exec (.wmvph (wField d)) s = .next t ∧ (t.wordAt d).toNat = s.p.toNat / 2 ^ 256 ∧ t.ovfAt d = false ∧
        (∀ j < 4, limb (t.wordAt d) j = productLimb s.p (j + 4)) ∧ OnlyWord d s t)

/-- R200: `WSHL`. -/
def Obligations.WshlShiftsLeft : Prop :=
  ∀ (d a : Fin 8) (n : ShiftAmount) (s : State),
    decode (0x16#8 ++ wField d ++ wField a ++ n) = .ok (.wshl (wField d) (wField a) n) ∧
    ∃ t, exec (.wshl (wField d) (wField a) n) s = .next t ∧
      (n.toNat ≥ 256 → t.wordAt d = 0) ∧
      (t.wordAt d).toNat = (s.wordAt a).toNat * 2 ^ n.toNat % 2 ^ 256 ∧ t.ovfAt d = false ∧ OnlyWord d s t

/-- R201: `WSHR`. -/
def Obligations.WshrShiftsRight : Prop :=
  ∀ (d a : Fin 8) (n : ShiftAmount) (s : State),
    decode (0x17#8 ++ wField d ++ wField a ++ n) = .ok (.wshr (wField d) (wField a) n) ∧
    ∃ t, exec (.wshr (wField d) (wField a) n) s = .next t ∧
      (n.toNat ≥ 256 → t.wordAt d = 0) ∧
      (t.wordAt d).toNat = (s.wordAt a).toNat / 2 ^ n.toNat ∧ t.ovfAt d = false ∧ OnlyWord d s t

/-- R202, R203, R204: `WAND`, `WOR` and `WXOR`, limb by limb. -/
def Obligations.BitwiseCommandsActLimbWise : Prop :=
  ∀ (d a b : Fin 8) (s : State),
    (decode (0x13#8 ++ wField d ++ wField a ++ wField b ++ 0#12) = .ok (.wand (wField d) (wField a) (wField b)) ∧
      ∃ t, exec (.wand (wField d) (wField a) (wField b)) s = .next t ∧
        (∀ j < 4, limb (t.wordAt d) j = limb (s.wordAt a) j &&& limb (s.wordAt b) j) ∧
        t.wordAt d = s.wordAt a &&& s.wordAt b ∧ t.ovfAt d = false ∧ OnlyWord d s t) ∧
    (decode (0x14#8 ++ wField d ++ wField a ++ wField b ++ 0#12) = .ok (.wor (wField d) (wField a) (wField b)) ∧
      ∃ t, exec (.wor (wField d) (wField a) (wField b)) s = .next t ∧
        (∀ j < 4, limb (t.wordAt d) j = limb (s.wordAt a) j ||| limb (s.wordAt b) j) ∧
        t.wordAt d = s.wordAt a ||| s.wordAt b ∧ t.ovfAt d = false ∧ OnlyWord d s t) ∧
    (decode (0x15#8 ++ wField d ++ wField a ++ wField b ++ 0#12) = .ok (.wxor (wField d) (wField a) (wField b)) ∧
      ∃ t, exec (.wxor (wField d) (wField a) (wField b)) s = .next t ∧
        (∀ j < 4, limb (t.wordAt d) j = limb (s.wordAt a) j ^^^ limb (s.wordAt b) j) ∧
        t.wordAt d = s.wordAt a ^^^ s.wordAt b ∧ t.ovfAt d = false ∧ OnlyWord d s t)

/-- R220: `WLD`: byte `k` of the slot is bits `8*(31-k)+7 : 8*(31-k)` of the register. -/
def Obligations.WldLoadsBigEndianSlot : Prop :=
  ∀ (d : Fin 8) (slot : SlotField) (s : State),
    decode (0x20#8 ++ wField d ++ 0#16 ++ slot) = .ok (.wld (wField d) slot) ∧
    ∃ t, exec (.wld (wField d) slot) s = .next t ∧
      (t.wordAt d).toNat = be (memRead s.sb (32 * slot.toNat) 32) ∧
      (∀ k < 32, (t.wordAt d).toNat / 2 ^ (8 * (31 - k)) % 256 = (s.byteAt (32 * slot.toNat + k)).toNat) ∧
      t.ovfAt d = false ∧ OnlyWord d s t

/-- R221: `WST`: all 32 bytes of the slot, most-significant first; nothing else, the flag included. -/
def Obligations.WstStoresBigEndianSlot : Prop :=
  ∀ (r : Fin 8) (slot : SlotField) (s : State), Memory.wf s.sb = true →
    decode (0x21#8 ++ wField r ++ 0#16 ++ slot) = .ok (.wst (wField r) slot) ∧
    ∃ t, exec (.wst (wField r) slot) s = .next t ∧
      (∀ k < 32, (t.byteAt (slotAddress slot + k)).toNat = (s.wordAt r).toNat / 2 ^ (8 * (31 - k)) % 256) ∧
      OnlySlot slot s t

/-- R224: `MLD`: the slot's magnitude with the command's sign, normalized; an all-zero slot gives canonical zero. -/
def Obligations.MldLoadsSignedMagnitude : Prop :=
  ∀ (d : Fin 4) (sign : Bool) (slot : SlotField) (s : State),
    decode (0x22#8 ++ mField d ++ 0#3 ++ BitVec.ofBool sign ++ 0#12 ++ slot) = .ok (.mld (mField d) sign slot) ∧
    ∃ t, exec (.mld (mField d) sign slot) s = .next t ∧
      val (t.mpAt d) =
        (if sign then -(be (memRead s.sb (32 * slot.toNat) 32) : Int) else (be (memRead s.sb (32 * slot.toNat) 32) : Int)) ∧
      (∀ k < 10, digitAt (t.mpAt d).dp k = be (memRead s.sb (32 * slot.toNat) 32) / 2 ^ (28 * k) % 2 ^ 28) ∧
      normalized (t.mpAt d) = true ∧ OnlyMp d s t

/-- R226: `MST` with a magnitude below 2^256 stores it, 32 bytes big-endian, and nothing of the sign; with a greater one
it raises NARROW_OVERFLOW(256) and the slot is unchanged. -/
def Obligations.MstStoresMagnitudeOrFaults : Prop :=
  ∀ (r : Fin 4) (slot : SlotField) (s : State), Memory.wf s.sb = true →
    decode (0x23#8 ++ mField r ++ 0#16 ++ slot) = .ok (.mst (mField r) slot) ∧
    (mag (s.mpAt r) < 2 ^ 256 →
      ∃ t, exec (.mst (mField r) slot) s = .next t ∧
        (∀ k < 32, (t.byteAt (slotAddress slot + k)).toNat = mag (s.mpAt r) / 2 ^ (8 * (31 - k)) % 256) ∧
        OnlySlot slot s t) ∧
    (2 ^ 256 ≤ mag (s.mpAt r) →
      ∃ t, exec (.mst (mField r) slot) s = .next t ∧
        Recorded .narrowOverflow 256 (0x23#8 ++ mField r ++ 0#16 ++ slot) t ∧ OnlyFaultRecord s t) ∧
    (normalized (s.mpAt r) = true →
      (2 ^ 256 ≤ mag (s.mpAt r) ↔ (s.mpAt r).used = 10 ∧ 16 ≤ digitAt (s.mpAt r).dp 9))

/-- R141: `MADD`: the exact signed sum, normalized; MP_CAPACITY(280) when it needs more than 10 digits. -/
def Obligations.MaddWritesExactSumOrFaults : Prop :=
  ∀ (d a b : Fin 4) (s : State),
    decode (0x30#8 ++ mField d ++ mField a ++ mField b ++ 0#12) = .ok (.madd (mField d) (mField a) (mField b)) ∧
    ((val (s.mpAt a) + val (s.mpAt b)).natAbs < 2 ^ 280 →
      ∃ t, exec (.madd (mField d) (mField a) (mField b)) s = .next t ∧
        val (t.mpAt d) = val (s.mpAt a) + val (s.mpAt b) ∧ normalized (t.mpAt d) = true ∧ OnlyMp d s t) ∧
    (2 ^ 280 ≤ (val (s.mpAt a) + val (s.mpAt b)).natAbs →
      ∃ t, exec (.madd (mField d) (mField a) (mField b)) s = .next t ∧
        Recorded .mpCapacity 280 (0x30#8 ++ mField d ++ mField a ++ mField b ++ 0#12) t ∧ OnlyFaultRecord s t)

/-- R142: `MSUB`: the exact signed difference, normalized; MP_CAPACITY(280) when it needs more than 10 digits. -/
def Obligations.MsubWritesExactDifferenceOrFaults : Prop :=
  ∀ (d a b : Fin 4) (s : State),
    decode (0x31#8 ++ mField d ++ mField a ++ mField b ++ 0#12) = .ok (.msub (mField d) (mField a) (mField b)) ∧
    ((val (s.mpAt a) - val (s.mpAt b)).natAbs < 2 ^ 280 →
      ∃ t, exec (.msub (mField d) (mField a) (mField b)) s = .next t ∧
        val (t.mpAt d) = val (s.mpAt a) - val (s.mpAt b) ∧ normalized (t.mpAt d) = true ∧ OnlyMp d s t) ∧
    (2 ^ 280 ≤ (val (s.mpAt a) - val (s.mpAt b)).natAbs →
      ∃ t, exec (.msub (mField d) (mField a) (mField b)) s = .next t ∧
        Recorded .mpCapacity 280 (0x31#8 ++ mField d ++ mField a ++ mField b ++ 0#12) t ∧ OnlyFaultRecord s t)

/-- R124: `MCMP`: STATUS.CMP gets the order of the two signed values, 0 = EQ, 1 = LT, 2 = GT; nothing else changes. -/
def Obligations.McmpWritesSignedOrder : Prop :=
  ∀ (a b : Fin 4) (s : State),
    decode (0x32#8 ++ 0#4 ++ mField a ++ mField b ++ 0#12) = .ok (.mcmp (mField a) (mField b)) ∧
    ∃ t, exec (.mcmp (mField a) (mField b)) s = .next t ∧
      t.cmp = mpCmp (s.mpAt a) (s.mpAt b) ∧
      (statusWord t).extractLsb' 1 2 = (match mpCmp (s.mpAt a) (s.mpAt b) with | .eq => 0#2 | .lt => 1#2 | .gt => 2#2) ∧
      (normalized (s.mpAt a) = true → normalized (s.mpAt b) = true →
        (statusWord t).extractLsb' 1 2 =
          if val (s.mpAt a) = val (s.mpAt b) then 0#2 else if val (s.mpAt a) < val (s.mpAt b) then 1#2 else 2#2) ∧
      SameWords s t ∧ SameProduct s t ∧ SameMps s t ∧ SameBytes s t ∧ SameInfo s t ∧ SameFaultRecord s t ∧ SameHost s t

/-- R125: `MCMPMAG`: STATUS.CMP gets the order of the two magnitudes, signs ignored; nothing else changes. -/
def Obligations.McmpmagWritesMagnitudeOrder : Prop :=
  ∀ (a b : Fin 4) (s : State),
    decode (0x33#8 ++ 0#4 ++ mField a ++ mField b ++ 0#12) = .ok (.mcmpmag (mField a) (mField b)) ∧
    ∃ t, exec (.mcmpmag (mField a) (mField b)) s = .next t ∧
      t.cmp = mpCmpMag (s.mpAt a) (s.mpAt b) ∧
      (statusWord t).extractLsb' 1 2 = (match mpCmpMag (s.mpAt a) (s.mpAt b) with | .eq => 0#2 | .lt => 1#2 | .gt => 2#2) ∧
      (normalized (s.mpAt a) = true → normalized (s.mpAt b) = true →
        (statusWord t).extractLsb' 1 2 =
          if mag (s.mpAt a) = mag (s.mpAt b) then 0#2 else if mag (s.mpAt a) < mag (s.mpAt b) then 1#2 else 2#2) ∧
      SameWords s t ∧ SameProduct s t ∧ SameMps s t ∧ SameBytes s t ∧ SameInfo s t ∧ SameFaultRecord s t ∧ SameHost s t

/-- R126: `MINFO`: STATUS.MSIGN and STATUS.MUSED get the register's sign and length; nothing else changes. -/
def Obligations.MinfoReportsSignAndLength : Prop :=
  ∀ (a : Fin 4) (s : State),
    decode (0x34#8 ++ 0#4 ++ mField a ++ 0#16) = .ok (.minfo (mField a)) ∧
    ∃ t, exec (.minfo (mField a)) s = .next t ∧
      t.msign = (s.mpAt a).sign ∧ t.mused.toNat = (s.mpAt a).used.val ∧ t.mused.toNat ≤ 10 ∧ t.cmp = s.cmp ∧
      SameWords s t ∧ SameProduct s t ∧ SameMps s t ∧ SameBytes s t ∧ SameFaultRecord s t ∧ SameHost s t

/-! ## The limb-level and digit-level algorithms compute the integer rules -/

/-- R162: addition limb by limb with carry equals R160, as the spec derives. -/
def Obligations.LimbAdditionIsAddition : Prop :=
  ∀ a b : Value256, addByLimbs a b = wordAdd a b ∧ limbCarry a b 0 = 0 ∧
    ∀ j, limbCarry a b j ≤ 1 ∧ (limb a j).toNat + (limb b j).toNat + limbCarry a b j < 2 ^ 65

/-- R163: subtraction limb by limb with borrow equals R161, as the spec derives. -/
def Obligations.LimbSubtractionIsSubtraction : Prop :=
  ∀ a b : Value256, subByLimbs a b = wordSub a b ∧ limbBorrow a b 0 = 0 ∧
    ∀ j, limbBorrow a b j ≤ 1 ∧ -(2 ^ 64) ≤ limbDifference a b j (limbBorrow a b j) ∧
      limbDifference a b j (limbBorrow a b j) ≤ 2 ^ 64 - 1

/-- R183, which the spec derives from R180: the product limb pair by limb pair: eight limbs, each below 2^64, that make
the exact product. -/
def Obligations.LimbMultiplicationIsMultiplication : Prop :=
  ∀ a b : Value256,
    (mulByLimbs a b).length = 8 ∧ (∀ l ∈ mulByLimbs a b, l < 2 ^ 64) ∧
    limbsValue (mulByLimbs a b) = a.toNat * b.toNat ∧
    ∀ k < 8, (mulByLimbs a b)[k]? = some (productLimb (wordMul a b) k).toNat

/-- R205, which the spec derives from R200 and R201: shifts limb by limb equal them for amounts below 256. -/
def Obligations.LimbShiftsAreShifts : Prop :=
  ∀ (a : Value256) (n : Nat), n < 256 → shlByLimbs a n = wordShl a n ∧ shrByLimbs a n = wordShr a n

/-- R164, which the spec gives from general knowledge, for orientation: the carry-out and borrow-out identities agree
with the `div` of R162 and the `t < 0` of R163. -/
def Obligations.CarryIdentitiesAgree : Prop :=
  ∀ (a b : Limb) (c : Nat), c ≤ 1 →
    (carryIdentity a b (BitVec.ofNat 64 (a.toNat + b.toNat + c)) = decide ((a.toNat + b.toNat + c) / 2 ^ 64 = 1)) ∧
    (borrowIdentity a b (BitVec.ofInt 64 ((a.toNat : Int) - b.toNat - c)) = decide ((a.toNat : Int) - b.toNat - c < 0))

/-- R146, which the spec derives from R140 to R145: the digit-level signed add gives the register of the exact sum, and
raises MP_CAPACITY exactly when the sum does not fit; with the sign of the second operand inverted it gives the
difference. -/
def Obligations.DigitLevelAddSubAgree : Prop :=
  ∀ a b : MPInt, normalized a = true → normalized b = true →
    ((val a + val b).natAbs < 2 ^ 280 → mpAddSigned a b = some (mpFromInt (val a + val b))) ∧
    (2 ^ 280 ≤ (val a + val b).natAbs → mpAddSigned a b = none) ∧
    ((val a - val b).natAbs < 2 ^ 280 → mpAddSigned a (mpNeg b) = some (mpFromInt (val a - val b))) ∧
    (2 ^ 280 ≤ (val a - val b).natAbs → mpAddSigned a (mpNeg b) = none)

/-- R121, which the spec derives from R120 and R27: items (a) to (f), of `mp_normalize`. -/
def Obligations.NormalizeProperties : Prop :=
  (∀ m : MPInt, mag (mpNormalize m) = mag m ∧ normalized (mpNormalize m) = true ∧
    mpNormalize (mpNormalize m) = mpNormalize m ∧ (normalized m = true → mpNormalize m = m) ∧
    val (mpNormalize m) = val m ∧ (mag m = 0 → (mpNormalize m).sign = false)) ∧
  (∀ a b : MPInt, normalized a = true → normalized b = true → val a = val b → a = b)

/-- R140, which the spec derives from R26 and R120: `mp_from_int`. -/
def Obligations.FromIntIsTheNormalizedRegister : Prop :=
  (∀ v : Int, v.natAbs < 2 ^ 280 →
    val (mpFromInt v) = v ∧ normalized (mpFromInt v) = true ∧ (mpFromInt v).sign = decide (v < 0) ∧
    mpFromInt v = mpNormalize { sign := decide (v < 0), used := 10, dp := (mpFromInt v).dp } ∧
    v.natAbs < 2 ^ (28 * (mpFromInt v).used.val) ∧
    (∀ u : Nat, v.natAbs < 2 ^ (28 * u) → (mpFromInt v).used.val ≤ u) ∧
    (∀ k < 10, digitAt (mpFromInt v).dp k = v.natAbs / 2 ^ (28 * k) % 2 ^ 28)) ∧
  mpFromInt 0 = MPInt.zero

/-- R122, R123, in what the spec derives there: on normalized operands the magnitude comparison orders the magnitudes
and the signed comparison orders the values; on two canonical zeros both answer EQ. -/
def Obligations.ComparisonsOrderTheIntegers : Prop :=
  (∀ a b : MPInt, normalized a = true → normalized b = true →
    mpCmpMag a b = (if mag a = mag b then .eq else if mag a < mag b then .lt else .gt) ∧
    mpCmp a b = (if val a = val b then .eq else if val a < val b then .lt else .gt)) ∧
  mpCmpMag MPInt.zero MPInt.zero = .eq ∧ mpCmp MPInt.zero MPInt.zero = .eq

/-! ## Laws and round trips over two commands -/

/-- R165, which the spec derives from R160 and R161: the laws of `WADD` and `WSUB`, for all operand values: the two
sides are the same commands' runs, on registers chosen so that no operand is overwritten, and they end in the same
state. -/
def Obligations.WordAddSubLaws : Prop :=
  ∀ (d a b c z : Fin 8) (s : State),
    exec (.wadd (wField d) (wField a) (wField b)) s = exec (.wadd (wField d) (wField b) (wField a)) s ∧
    (d ≠ a → d ≠ c →
      thenDo (exec (.wadd (wField d) (wField a) (wField b)) s) (exec (.wadd (wField d) (wField d) (wField c))) =
        thenDo (exec (.wadd (wField d) (wField b) (wField c)) s) (exec (.wadd (wField d) (wField a) (wField d)))) ∧
    (d ≠ b → ∃ t,
      thenDo (exec (.wadd (wField d) (wField a) (wField b)) s) (exec (.wsub (wField d) (wField d) (wField b))) = .next t ∧
        t.wordAt d = s.wordAt a) ∧
    (d ≠ a → s.wordAt z = 0 →
      exec (.wsub (wField d) (wField a) (wField b)) s =
        thenDo (exec (.wsub (wField d) (wField z) (wField b)) s) (exec (.wadd (wField d) (wField a) (wField d))))

/-- R166, which the spec derives from R160 and R161: after `WADD` the result is smaller than either operand exactly when
the sum overflowed; `WSUB` underflows exactly when the first operand is smaller, and its result is then greater than it.
-/
def Obligations.WrapAroundIsDetectable : Prop :=
  ∀ (d a b : Fin 8) (s : State),
    (∃ t, exec (.wadd (wField d) (wField a) (wField b)) s = .next t ∧
      ((t.wordAt d).toNat < (s.wordAt a).toNat ↔ 2 ^ 256 ≤ (s.wordAt a).toNat + (s.wordAt b).toNat) ∧
      ((t.wordAt d).toNat < (s.wordAt b).toNat ↔ 2 ^ 256 ≤ (s.wordAt a).toNat + (s.wordAt b).toNat) ∧ SameFaultRecord s t) ∧
    (∃ t, exec (.wsub (wField d) (wField a) (wField b)) s = .next t ∧
      ((s.wordAt a).toNat < (s.wordAt b).toNat ↔ (s.wordAt a).toNat < (t.wordAt d).toNat) ∧ SameFaultRecord s t)

/-- R184, which the spec derives from R180: the laws of `WMUL`. -/
def Obligations.MultiplyLaws : Prop :=
  ∀ (d a b : Fin 8) (s : State),
    exec (.wmul (wField d) (wField a) (wField b)) s = exec (.wmul (wField d) (wField b) (wField a)) s ∧
    ∃ t, exec (.wmul (wField d) (wField a) (wField b)) s = .next t ∧
      t.p.toNat = (t.wordAt d).toNat + 2 ^ 256 * (t.p.toNat / 2 ^ 256) ∧
      (t.ovfAt d = true ↔ 2 ^ 256 ≤ (s.wordAt a).toNat * (s.wordAt b).toNat) ∧
      (t.ovfAt d = false → (t.wordAt d).toNat = (s.wordAt a).toNat * (s.wordAt b).toNat)

/-- R206, which the spec derives from R200 and R201: the shift identity, with the bits that a shift loses. -/
def Obligations.ShiftRoundTrips : Prop :=
  ∀ (d a : Fin 8) (k : ShiftAmount) (s : State), k.toNat < 256 →
    (∃ t, thenDo (exec (.wshl (wField d) (wField a) k) s) (exec (.wshr (wField d) (wField d) k)) = .next t ∧
      (t.wordAt d).toNat = (s.wordAt a).toNat % 2 ^ (256 - k.toNat) ∧
      (t.wordAt d = s.wordAt a ↔ (s.wordAt a).toNat < 2 ^ (256 - k.toNat))) ∧
    (∃ t, thenDo (exec (.wshr (wField d) (wField a) k) s) (exec (.wshl (wField d) (wField d) k)) = .next t ∧
      (t.wordAt d).toNat = (s.wordAt a).toNat - (s.wordAt a).toNat % 2 ^ k.toNat)

/-- R222, which the spec derives from R220 and R221: the round trip of a Word256 through a slot, and of a slot through a
Word256; the flag does not survive. -/
def Obligations.WordSlotRoundTrips : Prop :=
  ∀ (w w' : Fin 8) (slot slot' : SlotField) (s : State), Memory.wf s.sb = true →
    (∃ t, thenDo (exec (.wst (wField w) slot) s) (exec (.wld (wField w') slot)) = .next t ∧
      t.wordAt w' = s.wordAt w ∧ t.ovfAt w' = false) ∧
    (∃ t, thenDo (exec (.wld (wField w) slot) s) (exec (.wst (wField w) slot')) = .next t ∧
      ∀ k < 32, t.byteAt (slotAddress slot' + k) = s.byteAt (slotAddress slot + k))

/-- R227, which the spec derives from R220, R221, R224, R226 and R27: the round trips of an MPInt through a slot, and
the conversions between a Word256 and an MPInt. -/
def Obligations.MpintSlotRoundTrips : Prop :=
  ∀ (a b : Fin 4) (w : Fin 8) (sign : Bool) (slot slot' : SlotField) (s : State), Memory.wf s.sb = true →
    (normalized (s.mpAt a) = true → mag (s.mpAt a) < 2 ^ 256 →
      (∃ t, thenDo (exec (.mst (mField a) slot) s) (exec (.mld (mField b) (s.mpAt a).sign slot)) = .next t ∧
        t.mpAt b = s.mpAt a) ∧
      (∃ t, thenDo (exec (.mst (mField a) slot) s) (exec (.wld (wField w) slot)) = .next t ∧
        (t.wordAt w).toNat = mag (s.mpAt a))) ∧
    (∃ t, thenDo (exec (.mld (mField a) sign slot) s) (exec (.mst (mField a) slot')) = .next t ∧
      ∀ k < 32, t.byteAt (slotAddress slot' + k) = s.byteAt (slotAddress slot + k)) ∧
    (∃ t, thenDo (exec (.wst (wField w) slot) s) (exec (.mld (mField a) false slot)) = .next t ∧
      val (t.mpAt a) = (s.wordAt w).toNat)

/-- R147, which the spec derives from R141 and R142: the laws of `MADD` and `MSUB`, whenever no command of the
expression faults: the two sides end in the same state, or give the same register, field by field. -/
def Obligations.MpintAddSubLaws : Prop :=
  ∀ (d a b c z : Fin 4) (s : State), s.inv = true → s.fault = false →
    (∀ t, exec (.madd (mField d) (mField a) (mField b)) s = .next t → t.fault = false →
      exec (.madd (mField d) (mField b) (mField a)) s = .next t) ∧
    (d ≠ a → d ≠ c → ∀ t u,
      thenDo (exec (.madd (mField d) (mField a) (mField b)) s) (exec (.madd (mField d) (mField d) (mField c))) = .next t →
        t.fault = false →
      thenDo (exec (.madd (mField d) (mField b) (mField c)) s) (exec (.madd (mField d) (mField a) (mField d))) = .next u →
        u.fault = false → u = t) ∧
    (d ≠ a → val (s.mpAt z) = 0 → ∀ t u, exec (.msub (mField d) (mField a) (mField b)) s = .next t → t.fault = false →
      thenDo (exec (.msub (mField d) (mField z) (mField b)) s) (exec (.madd (mField d) (mField a) (mField d))) = .next u →
        u.fault = false → u = t) ∧
    (d ≠ b → ∀ t,
      thenDo (exec (.madd (mField d) (mField a) (mField b)) s) (exec (.msub (mField d) (mField d) (mField b))) = .next t →
        t.fault = false → t.mpAt d = s.mpAt a) ∧
    (∃ t, exec (.msub (mField d) (mField a) (mField a)) s = .next t ∧ t.mpAt d = MPInt.zero ∧ t.fault = false)
end

