-- ==== Sys2Proof/Laws/Encoding.lean ====
section
/-! SUPPORT. The fields of the three word formats read back (`30_encoding.md` R91), and what a mask leaves of them (R100). -/

namespace Sys2Proof

/-! ## Fields of a word built from fields -/

section FormatR
variable (op : BitVec 8) (rd rs1 rs2 : RegField)

@[simp] theorem opField_formatR : opField (formatR op rd rs1 rs2) = op := by
  apply BitVec.eq_of_getLsbD_eq; intro i hi
  simp [formatR, opField, BitVec.getLsbD_extractLsb']
  grind

@[simp] theorem rdField_formatR : rdField (formatR op rd rs1 rs2) = rd := by
  apply BitVec.eq_of_getLsbD_eq; intro i hi
  simp [formatR, rdField, BitVec.getLsbD_extractLsb']
  grind

@[simp] theorem rs1Field_formatR : rs1Field (formatR op rd rs1 rs2) = rs1 := by
  apply BitVec.eq_of_getLsbD_eq; intro i hi
  simp [formatR, rs1Field, BitVec.getLsbD_extractLsb']
  grind

@[simp] theorem rs2Field_formatR : rs2Field (formatR op rd rs1 rs2) = rs2 := by
  apply BitVec.eq_of_getLsbD_eq; intro i hi
  simp [formatR, rs2Field, BitVec.getLsbD_extractLsb']
  grind

@[simp] theorem low12Field_formatR : low12Field (formatR op rd rs1 rs2) = 0 := by
  apply BitVec.eq_of_getLsbD_eq; intro i hi
  simp [formatR, low12Field, BitVec.getLsbD_extractLsb']
  grind

end FormatR

section FormatI
variable (op : BitVec 8) (rd rs1 : RegField) (imm16 : ShiftAmount)

@[simp] theorem opField_formatI : opField (formatI op rd rs1 imm16) = op := by
  apply BitVec.eq_of_getLsbD_eq; intro i hi
  simp [formatI, opField, BitVec.getLsbD_extractLsb']
  grind

@[simp] theorem rdField_formatI : rdField (formatI op rd rs1 imm16) = rd := by
  apply BitVec.eq_of_getLsbD_eq; intro i hi
  simp [formatI, rdField, BitVec.getLsbD_extractLsb']
  grind

@[simp] theorem rs1Field_formatI : rs1Field (formatI op rd rs1 imm16) = rs1 := by
  apply BitVec.eq_of_getLsbD_eq; intro i hi
  simp [formatI, rs1Field, BitVec.getLsbD_extractLsb']
  grind

@[simp] theorem imm16Field_formatI : imm16Field (formatI op rd rs1 imm16) = imm16 := by
  apply BitVec.eq_of_getLsbD_eq; intro i hi
  simp [formatI, imm16Field, BitVec.getLsbD_extractLsb']
  grind

end FormatI

section FormatM
variable (op : BitVec 8) (r : RegField) (s : Bool) (slot : SlotField)

@[simp] theorem opField_formatM : opField (formatM op r s slot) = op := by
  apply BitVec.eq_of_getLsbD_eq; intro i hi
  simp [formatM, opField, BitVec.getLsbD_extractLsb']
  grind

@[simp] theorem rdField_formatM : rdField (formatM op r s slot) = r := by
  apply BitVec.eq_of_getLsbD_eq; intro i hi
  simp [formatM, rdField, BitVec.getLsbD_extractLsb']
  grind

@[simp] theorem mHighField_formatM : mHighField (formatM op r s slot) = 0 := by
  apply BitVec.eq_of_getLsbD_eq; intro i hi
  simp [formatM, mHighField, BitVec.getLsbD_extractLsb']
  grind

@[simp] theorem sField_formatM : sField (formatM op r s slot) = s := by
  unfold formatM sField
  grind

@[simp] theorem mMidField_formatM : mMidField (formatM op r s slot) = 0 := by
  apply BitVec.eq_of_getLsbD_eq; intro i hi
  simp [formatM, mMidField, BitVec.getLsbD_extractLsb']
  grind

@[simp] theorem slotField_formatM : slotField (formatM op r s slot) = slot := by
  apply BitVec.eq_of_getLsbD_eq; intro i hi
  simp [formatM, slotField, BitVec.getLsbD_extractLsb']
  grind

end FormatM

/-! ## Masks, field by field -/

/-- Masking four appended fields masks each. -/
theorem and_append4 {i j k l : Nat} (a a' : BitVec i) (b b' : BitVec j) (c c' : BitVec k) (d d' : BitVec l) :
    (a ++ b ++ c ++ d) &&& (a' ++ b' ++ c' ++ d') = (a &&& a') ++ (b &&& b') ++ (c &&& c') ++ (d &&& d') := by
  simp only [BitVec.and_append]

/-- A mask over a Format R word masks its fields. -/
theorem formatR_and (op mop : BitVec 8) (rd rs1 rs2 md m1 m2 : RegField) (low : BitVec 12) :
    formatR op rd rs1 rs2 &&& (mop ++ md ++ m1 ++ m2 ++ low) =
      formatR (op &&& mop) (rd &&& md) (rs1 &&& m1) (rs2 &&& m2) :=
  calc
    _ = (op ++ rd ++ rs1 ++ rs2 &&& mop ++ md ++ m1 ++ m2) ++ (0#12 &&& low) := BitVec.and_append
    _ = _ := by rw [and_append4, BitVec.zero_and]; rfl

/-- A mask over a Format I word masks its fields. -/
theorem formatI_and (op mop : BitVec 8) (rd rs1 md m1 : RegField) (imm16 mi : ShiftAmount) :
    formatI op rd rs1 imm16 &&& (mop ++ md ++ m1 ++ mi) =
      formatI (op &&& mop) (rd &&& md) (rs1 &&& m1) (imm16 &&& mi) :=
  and_append4 op mop rd md rs1 m1 imm16 mi

/-- A mask over a Format M word masks its fields. -/
theorem formatM_and (op mop : BitVec 8) (r mr : RegField) (high : BitVec 3) (s ms : Bool) (mid : BitVec 12)
    (slot mslot : SlotField) :
    formatM op r s slot &&& (mop ++ mr ++ high ++ BitVec.ofBool ms ++ mid ++ mslot) =
      formatM (op &&& mop) (r &&& mr) (s && ms) (slot &&& mslot) :=
  calc
    _ = ((op ++ r ++ 0#3 ++ BitVec.ofBool s ++ 0#12) &&& (mop ++ mr ++ high ++ BitVec.ofBool ms ++ mid)) ++
          (slot &&& mslot) := BitVec.and_append
    _ = ((op ++ r ++ 0#3 ++ BitVec.ofBool s &&& mop ++ mr ++ high ++ BitVec.ofBool ms) ++ (0#12 &&& mid)) ++
          (slot &&& mslot) := by rw [BitVec.and_append]
    _ = _ := by rw [and_append4, BitVec.zero_and, BitVec.zero_and, BitVec.ofBool_and_ofBool]; rfl

/-- Bit 3 of a Word256 register field in range is 0 (R92). -/
theorem isWReg_and : ∀ f : RegField, isWReg f = true → f &&& 8#4 = 0 := by decide

/-- Bits 3:2 of an MPInt register field in range are 0 (R92). -/
theorem isMReg_and : ∀ f : RegField, isMReg f = true → f &&& 12#4 = 0 := by decide

end Sys2Proof
end

