-- ==== Sys2Proof/Laws/State.lean ====
section
/-! SUPPORT. One lemma per field per update of the state, the register accessors after each update, and the reset state's
fields. -/

namespace Sys2Proof.Machine

/-! ## Fields after an update -/

@[simp] theorem setWord_w (s : State) (i : Fin 8) (v : Value256) (o : Bool) : (s.setWord i v o).w = s.w.set i { value := v, ovf := o } := rfl
@[simp] theorem setWord_p (s : State) (i : Fin 8) (v : Value256) (o : Bool) : (s.setWord i v o).p = s.p := rfl
@[simp] theorem setWord_m (s : State) (i : Fin 8) (v : Value256) (o : Bool) : (s.setWord i v o).m = s.m := rfl
@[simp] theorem setWord_sb (s : State) (i : Fin 8) (v : Value256) (o : Bool) : (s.setWord i v o).sb = s.sb := rfl
@[simp] theorem setWord_fault (s : State) (i : Fin 8) (v : Value256) (o : Bool) : (s.setWord i v o).fault = s.fault := rfl
@[simp] theorem setWord_cmp (s : State) (i : Fin 8) (v : Value256) (o : Bool) : (s.setWord i v o).cmp = s.cmp := rfl
@[simp] theorem setWord_msign (s : State) (i : Fin 8) (v : Value256) (o : Bool) : (s.setWord i v o).msign = s.msign := rfl
@[simp] theorem setWord_mused (s : State) (i : Fin 8) (v : Value256) (o : Bool) : (s.setWord i v o).mused = s.mused := rfl
@[simp] theorem setWord_fcause (s : State) (i : Fin 8) (v : Value256) (o : Bool) : (s.setWord i v o).fcause = s.fcause := rfl
@[simp] theorem setWord_fcmd (s : State) (i : Fin 8) (v : Value256) (o : Bool) : (s.setWord i v o).fcmd = s.fcmd := rfl
@[simp] theorem setWord_finfo (s : State) (i : Fin 8) (v : Value256) (o : Bool) : (s.setWord i v o).finfo = s.finfo := rfl
@[simp] theorem setWord_pending (s : State) (i : Fin 8) (v : Value256) (o : Bool) : (s.setWord i v o).pending = s.pending := rfl
@[simp] theorem setWord_hostRead (s : State) (i : Fin 8) (v : Value256) (o : Bool) : (s.setWord i v o).hostRead = s.hostRead := rfl

@[simp] theorem setMp_w (s : State) (i : Fin 4) (v : MPInt) : (s.setMp i v).w = s.w := rfl
@[simp] theorem setMp_p (s : State) (i : Fin 4) (v : MPInt) : (s.setMp i v).p = s.p := rfl
@[simp] theorem setMp_m (s : State) (i : Fin 4) (v : MPInt) : (s.setMp i v).m = s.m.set i v := rfl
@[simp] theorem setMp_sb (s : State) (i : Fin 4) (v : MPInt) : (s.setMp i v).sb = s.sb := rfl
@[simp] theorem setMp_fault (s : State) (i : Fin 4) (v : MPInt) : (s.setMp i v).fault = s.fault := rfl
@[simp] theorem setMp_cmp (s : State) (i : Fin 4) (v : MPInt) : (s.setMp i v).cmp = s.cmp := rfl
@[simp] theorem setMp_msign (s : State) (i : Fin 4) (v : MPInt) : (s.setMp i v).msign = s.msign := rfl
@[simp] theorem setMp_mused (s : State) (i : Fin 4) (v : MPInt) : (s.setMp i v).mused = s.mused := rfl
@[simp] theorem setMp_fcause (s : State) (i : Fin 4) (v : MPInt) : (s.setMp i v).fcause = s.fcause := rfl
@[simp] theorem setMp_fcmd (s : State) (i : Fin 4) (v : MPInt) : (s.setMp i v).fcmd = s.fcmd := rfl
@[simp] theorem setMp_finfo (s : State) (i : Fin 4) (v : MPInt) : (s.setMp i v).finfo = s.finfo := rfl
@[simp] theorem setMp_pending (s : State) (i : Fin 4) (v : MPInt) : (s.setMp i v).pending = s.pending := rfl
@[simp] theorem setMp_hostRead (s : State) (i : Fin 4) (v : MPInt) : (s.setMp i v).hostRead = s.hostRead := rfl

@[simp] theorem setByte_w (s : State) (a : Nat) (b : Byte) : (s.setByte a b).w = s.w := rfl
@[simp] theorem setByte_p (s : State) (a : Nat) (b : Byte) : (s.setByte a b).p = s.p := rfl
@[simp] theorem setByte_m (s : State) (a : Nat) (b : Byte) : (s.setByte a b).m = s.m := rfl
@[simp] theorem setByte_sb (s : State) (a : Nat) (b : Byte) : (s.setByte a b).sb = Memory.write s.sb a b := rfl
@[simp] theorem setByte_fault (s : State) (a : Nat) (b : Byte) : (s.setByte a b).fault = s.fault := rfl
@[simp] theorem setByte_cmp (s : State) (a : Nat) (b : Byte) : (s.setByte a b).cmp = s.cmp := rfl
@[simp] theorem setByte_msign (s : State) (a : Nat) (b : Byte) : (s.setByte a b).msign = s.msign := rfl
@[simp] theorem setByte_mused (s : State) (a : Nat) (b : Byte) : (s.setByte a b).mused = s.mused := rfl
@[simp] theorem setByte_fcause (s : State) (a : Nat) (b : Byte) : (s.setByte a b).fcause = s.fcause := rfl
@[simp] theorem setByte_fcmd (s : State) (a : Nat) (b : Byte) : (s.setByte a b).fcmd = s.fcmd := rfl
@[simp] theorem setByte_finfo (s : State) (a : Nat) (b : Byte) : (s.setByte a b).finfo = s.finfo := rfl
@[simp] theorem setByte_pending (s : State) (a : Nat) (b : Byte) : (s.setByte a b).pending = s.pending := rfl
@[simp] theorem setByte_hostRead (s : State) (a : Nat) (b : Byte) : (s.setByte a b).hostRead = s.hostRead := rfl

@[simp] theorem setSlot_w (s : State) (k : SlotField) (v : Nat) : (s.setSlot k v).w = s.w := by
  simp only [State.setSlot, Config.slotBytes]
@[simp] theorem setSlot_p (s : State) (k : SlotField) (v : Nat) : (s.setSlot k v).p = s.p := by
  simp only [State.setSlot, Config.slotBytes]
@[simp] theorem setSlot_m (s : State) (k : SlotField) (v : Nat) : (s.setSlot k v).m = s.m := by
  simp only [State.setSlot, Config.slotBytes]
@[simp] theorem setSlot_sb (s : State) (k : SlotField) (v : Nat) : (s.setSlot k v).sb = memWrite s.sb (slotAddress k) (beBytes v 32) := by
  simp only [State.setSlot, Config.slotBytes]
@[simp] theorem setSlot_fault (s : State) (k : SlotField) (v : Nat) : (s.setSlot k v).fault = s.fault := by
  simp only [State.setSlot, Config.slotBytes]
@[simp] theorem setSlot_cmp (s : State) (k : SlotField) (v : Nat) : (s.setSlot k v).cmp = s.cmp := by
  simp only [State.setSlot, Config.slotBytes]
@[simp] theorem setSlot_msign (s : State) (k : SlotField) (v : Nat) : (s.setSlot k v).msign = s.msign := by
  simp only [State.setSlot, Config.slotBytes]
@[simp] theorem setSlot_mused (s : State) (k : SlotField) (v : Nat) : (s.setSlot k v).mused = s.mused := by
  simp only [State.setSlot, Config.slotBytes]
@[simp] theorem setSlot_fcause (s : State) (k : SlotField) (v : Nat) : (s.setSlot k v).fcause = s.fcause := by
  simp only [State.setSlot, Config.slotBytes]
@[simp] theorem setSlot_fcmd (s : State) (k : SlotField) (v : Nat) : (s.setSlot k v).fcmd = s.fcmd := by
  simp only [State.setSlot, Config.slotBytes]
@[simp] theorem setSlot_finfo (s : State) (k : SlotField) (v : Nat) : (s.setSlot k v).finfo = s.finfo := by
  simp only [State.setSlot, Config.slotBytes]
@[simp] theorem setSlot_pending (s : State) (k : SlotField) (v : Nat) : (s.setSlot k v).pending = s.pending := by
  simp only [State.setSlot, Config.slotBytes]
@[simp] theorem setSlot_hostRead (s : State) (k : SlotField) (v : Nat) : (s.setSlot k v).hostRead = s.hostRead := by
  simp only [State.setSlot, Config.slotBytes]

@[simp] theorem takeFault_w (s : State) (f : FaultCause) (c : Word) : (s.takeFault f c).w = s.w := rfl
@[simp] theorem takeFault_p (s : State) (f : FaultCause) (c : Word) : (s.takeFault f c).p = s.p := rfl
@[simp] theorem takeFault_m (s : State) (f : FaultCause) (c : Word) : (s.takeFault f c).m = s.m := rfl
@[simp] theorem takeFault_sb (s : State) (f : FaultCause) (c : Word) : (s.takeFault f c).sb = s.sb := rfl
@[simp] theorem takeFault_fault (s : State) (f : FaultCause) (c : Word) : (s.takeFault f c).fault = true := rfl
@[simp] theorem takeFault_cmp (s : State) (f : FaultCause) (c : Word) : (s.takeFault f c).cmp = s.cmp := rfl
@[simp] theorem takeFault_msign (s : State) (f : FaultCause) (c : Word) : (s.takeFault f c).msign = s.msign := rfl
@[simp] theorem takeFault_mused (s : State) (f : FaultCause) (c : Word) : (s.takeFault f c).mused = s.mused := rfl
@[simp] theorem takeFault_fcause (s : State) (f : FaultCause) (c : Word) : (s.takeFault f c).fcause = f := rfl
@[simp] theorem takeFault_fcmd (s : State) (f : FaultCause) (c : Word) : (s.takeFault f c).fcmd = c := rfl
@[simp] theorem takeFault_finfo (s : State) (f : FaultCause) (c : Word) : (s.takeFault f c).finfo = causeInfo f := rfl
@[simp] theorem takeFault_pending (s : State) (f : FaultCause) (c : Word) : (s.takeFault f c).pending = s.pending := rfl
@[simp] theorem takeFault_hostRead (s : State) (f : FaultCause) (c : Word) : (s.takeFault f c).hostRead = s.hostRead := rfl

@[simp] theorem softReset_w (s : State) : (s.softReset).w = State.reset.w := rfl
@[simp] theorem softReset_p (s : State) : (s.softReset).p = State.reset.p := rfl
@[simp] theorem softReset_m (s : State) : (s.softReset).m = State.reset.m := rfl
@[simp] theorem softReset_sb (s : State) : (s.softReset).sb = State.reset.sb := rfl
@[simp] theorem softReset_fault (s : State) : (s.softReset).fault = State.reset.fault := rfl
@[simp] theorem softReset_cmp (s : State) : (s.softReset).cmp = State.reset.cmp := rfl
@[simp] theorem softReset_msign (s : State) : (s.softReset).msign = State.reset.msign := rfl
@[simp] theorem softReset_mused (s : State) : (s.softReset).mused = State.reset.mused := rfl
@[simp] theorem softReset_fcause (s : State) : (s.softReset).fcause = State.reset.fcause := rfl
@[simp] theorem softReset_fcmd (s : State) : (s.softReset).fcmd = State.reset.fcmd := rfl
@[simp] theorem softReset_finfo (s : State) : (s.softReset).finfo = State.reset.finfo := rfl
@[simp] theorem softReset_pending (s : State) : (s.softReset).pending = s.pending := rfl
@[simp] theorem softReset_hostRead (s : State) : (s.softReset).hostRead = State.reset.hostRead := rfl

@[simp] theorem setCmp_w (s : State) (r : Ordering) : (setCmp r s).w = s.w := rfl
@[simp] theorem setCmp_p (s : State) (r : Ordering) : (setCmp r s).p = s.p := rfl
@[simp] theorem setCmp_m (s : State) (r : Ordering) : (setCmp r s).m = s.m := rfl
@[simp] theorem setCmp_sb (s : State) (r : Ordering) : (setCmp r s).sb = s.sb := rfl
@[simp] theorem setCmp_fault (s : State) (r : Ordering) : (setCmp r s).fault = s.fault := rfl
@[simp] theorem setCmp_cmp (s : State) (r : Ordering) : (setCmp r s).cmp = r := rfl
@[simp] theorem setCmp_msign (s : State) (r : Ordering) : (setCmp r s).msign = s.msign := rfl
@[simp] theorem setCmp_mused (s : State) (r : Ordering) : (setCmp r s).mused = s.mused := rfl
@[simp] theorem setCmp_fcause (s : State) (r : Ordering) : (setCmp r s).fcause = s.fcause := rfl
@[simp] theorem setCmp_fcmd (s : State) (r : Ordering) : (setCmp r s).fcmd = s.fcmd := rfl
@[simp] theorem setCmp_finfo (s : State) (r : Ordering) : (setCmp r s).finfo = s.finfo := rfl
@[simp] theorem setCmp_pending (s : State) (r : Ordering) : (setCmp r s).pending = s.pending := rfl
@[simp] theorem setCmp_hostRead (s : State) (r : Ordering) : (setCmp r s).hostRead = s.hostRead := rfl

@[simp] theorem withFetchWord_w (s : State) (nbits n : Nat) : (s.withFetchWord nbits n).w = s.w := rfl
@[simp] theorem withFetchWord_p (s : State) (nbits n : Nat) : (s.withFetchWord nbits n).p = s.p := rfl
@[simp] theorem withFetchWord_m (s : State) (nbits n : Nat) : (s.withFetchWord nbits n).m = s.m := rfl
@[simp] theorem withFetchWord_sb (s : State) (nbits n : Nat) : (s.withFetchWord nbits n).sb = s.sb := rfl
@[simp] theorem withFetchWord_fault (s : State) (nbits n : Nat) : (s.withFetchWord nbits n).fault = s.fault := rfl
@[simp] theorem withFetchWord_cmp (s : State) (nbits n : Nat) : (s.withFetchWord nbits n).cmp = s.cmp := rfl
@[simp] theorem withFetchWord_msign (s : State) (nbits n : Nat) : (s.withFetchWord nbits n).msign = s.msign := rfl
@[simp] theorem withFetchWord_mused (s : State) (nbits n : Nat) : (s.withFetchWord nbits n).mused = s.mused := rfl
@[simp] theorem withFetchWord_fcause (s : State) (nbits n : Nat) : (s.withFetchWord nbits n).fcause = s.fcause := rfl
@[simp] theorem withFetchWord_fcmd (s : State) (nbits n : Nat) : (s.withFetchWord nbits n).fcmd = s.fcmd := rfl
@[simp] theorem withFetchWord_finfo (s : State) (nbits n : Nat) : (s.withFetchWord nbits n).finfo = s.finfo := rfl
@[simp] theorem withFetchWord_pending (s : State) (nbits n : Nat) : (s.withFetchWord nbits n).pending = .op (.cmd (BitVec.ofNat 32 (n % 2 ^ nbits))) :: s.pending := rfl
@[simp] theorem withFetchWord_hostRead (s : State) (nbits n : Nat) : (s.withFetchWord nbits n).hostRead = s.hostRead := rfl

@[simp] theorem performing_w (s : State) (rest : List HostAccess) : (performing rest s).w = s.w := rfl
@[simp] theorem performing_p (s : State) (rest : List HostAccess) : (performing rest s).p = s.p := rfl
@[simp] theorem performing_m (s : State) (rest : List HostAccess) : (performing rest s).m = s.m := rfl
@[simp] theorem performing_sb (s : State) (rest : List HostAccess) : (performing rest s).sb = s.sb := rfl
@[simp] theorem performing_fault (s : State) (rest : List HostAccess) : (performing rest s).fault = s.fault := rfl
@[simp] theorem performing_cmp (s : State) (rest : List HostAccess) : (performing rest s).cmp = s.cmp := rfl
@[simp] theorem performing_msign (s : State) (rest : List HostAccess) : (performing rest s).msign = s.msign := rfl
@[simp] theorem performing_mused (s : State) (rest : List HostAccess) : (performing rest s).mused = s.mused := rfl
@[simp] theorem performing_fcause (s : State) (rest : List HostAccess) : (performing rest s).fcause = s.fcause := rfl
@[simp] theorem performing_fcmd (s : State) (rest : List HostAccess) : (performing rest s).fcmd = s.fcmd := rfl
@[simp] theorem performing_finfo (s : State) (rest : List HostAccess) : (performing rest s).finfo = s.finfo := rfl
@[simp] theorem performing_pending (s : State) (rest : List HostAccess) : (performing rest s).pending = rest := rfl
@[simp] theorem performing_hostRead (s : State) (rest : List HostAccess) : (performing rest s).hostRead = none := rfl

@[simp] theorem nextCommand_w (s : State) (c : Word) (rest : List HostAccess) : (nextCommand c rest s).w = s.w := rfl
@[simp] theorem nextCommand_p (s : State) (c : Word) (rest : List HostAccess) : (nextCommand c rest s).p = s.p := rfl
@[simp] theorem nextCommand_m (s : State) (c : Word) (rest : List HostAccess) : (nextCommand c rest s).m = s.m := rfl
@[simp] theorem nextCommand_sb (s : State) (c : Word) (rest : List HostAccess) : (nextCommand c rest s).sb = s.sb := rfl
@[simp] theorem nextCommand_fault (s : State) (c : Word) (rest : List HostAccess) : (nextCommand c rest s).fault = s.fault := rfl
@[simp] theorem nextCommand_cmp (s : State) (c : Word) (rest : List HostAccess) : (nextCommand c rest s).cmp = s.cmp := rfl
@[simp] theorem nextCommand_msign (s : State) (c : Word) (rest : List HostAccess) : (nextCommand c rest s).msign = s.msign := rfl
@[simp] theorem nextCommand_mused (s : State) (c : Word) (rest : List HostAccess) : (nextCommand c rest s).mused = s.mused := rfl
@[simp] theorem nextCommand_fcause (s : State) (c : Word) (rest : List HostAccess) : (nextCommand c rest s).fcause = s.fcause := rfl
@[simp] theorem nextCommand_fcmd (s : State) (c : Word) (rest : List HostAccess) : (nextCommand c rest s).fcmd = s.fcmd := rfl
@[simp] theorem nextCommand_finfo (s : State) (c : Word) (rest : List HostAccess) : (nextCommand c rest s).finfo = s.finfo := rfl
@[simp] theorem nextCommand_pending (s : State) (c : Word) (rest : List HostAccess) : (nextCommand c rest s).pending = .op (.cmd c) :: rest := rfl
@[simp] theorem nextCommand_hostRead (s : State) (c : Word) (rest : List HostAccess) : (nextCommand c rest s).hostRead = s.hostRead := rfl

/-! ## The reset state (R41) -/

@[simp] theorem reset_w : State.reset.w = Vector.replicate 8 { value := 0, ovf := false } := rfl
@[simp] theorem reset_p : State.reset.p = 0 := BitVec.zero_eq
@[simp] theorem reset_m : State.reset.m = Vector.replicate 4 MPInt.zero := rfl
@[simp] theorem reset_sb : State.reset.sb = [] := rfl
@[simp] theorem reset_fault : State.reset.fault = false := rfl
@[simp] theorem reset_cmp : State.reset.cmp = .eq := rfl
@[simp] theorem reset_msign : State.reset.msign = false := rfl
@[simp] theorem reset_mused : State.reset.mused = 0 := rfl
@[simp] theorem reset_fcause : State.reset.fcause = .none := rfl
@[simp] theorem reset_fcmd : State.reset.fcmd = 0 := rfl
@[simp] theorem reset_finfo : State.reset.finfo = 0 := rfl
@[simp] theorem reset_pending : State.reset.pending = [] := rfl
@[simp] theorem reset_hostRead : State.reset.hostRead = none := rfl

/-! ## Accessors -/

@[simp] theorem wordAt_setWord_self (s : State) (i : Fin 8) (v : Value256) (o : Bool) :
    (s.setWord i v o).wordAt i = v := by
  simp [State.wordAt, Vector.get_eq_getElem]

@[simp] theorem ovfAt_setWord_self (s : State) (i : Fin 8) (v : Value256) (o : Bool) :
    (s.setWord i v o).ovfAt i = o := by
  simp [State.ovfAt, Vector.get_eq_getElem]

theorem wordAt_setWord_ne (s : State) {i j : Fin 8} (v : Value256) (o : Bool) (h : j ≠ i) :
    (s.setWord i v o).wordAt j = s.wordAt j := by
  have h' : i.val ≠ j.val := fun e => h (Fin.ext e.symm)
  simp [State.wordAt, Vector.get_eq_getElem, h']

theorem ovfAt_setWord_ne (s : State) {i j : Fin 8} (v : Value256) (o : Bool) (h : j ≠ i) :
    (s.setWord i v o).ovfAt j = s.ovfAt j := by
  have h' : i.val ≠ j.val := fun e => h (Fin.ext e.symm)
  simp [State.ovfAt, Vector.get_eq_getElem, h']

@[simp] theorem mpAt_setMp_self (s : State) (i : Fin 4) (v : MPInt) : (s.setMp i v).mpAt i = v := by
  simp [State.mpAt, Vector.get_eq_getElem]

theorem mpAt_setMp_ne (s : State) {i j : Fin 4} (v : MPInt) (h : j ≠ i) : (s.setMp i v).mpAt j = s.mpAt j := by
  have h' : i.val ≠ j.val := fun e => h (Fin.ext e.symm)
  simp [State.mpAt, Vector.get_eq_getElem, h']

/-- A Word256 register reads the same in two states with the same register file. -/
theorem wordAt_congr {s t : State} (h : t.w = s.w) (i : Fin 8) : t.wordAt i = s.wordAt i := by
  simp [State.wordAt, h]

/-- An overflow flag reads the same in two states with the same register file. -/
theorem ovfAt_congr {s t : State} (h : t.w = s.w) (i : Fin 8) : t.ovfAt i = s.ovfAt i := by
  simp [State.ovfAt, h]

/-- An MPInt register reads the same in two states with the same file. -/
theorem mpAt_congr {s t : State} (h : t.m = s.m) (i : Fin 4) : t.mpAt i = s.mpAt i := by
  simp [State.mpAt, h]

/-- A byte reads the same in two states with the same slot buffer. -/
theorem byteAt_congr {s t : State} (h : t.sb = s.sb) (a : Nat) : t.byteAt a = s.byteAt a := by
  simp [State.byteAt, h]

@[simp] theorem reset_wordAt (i : Fin 8) : State.reset.wordAt i = 0 := by
  simp [State.wordAt, Vector.get_eq_getElem]

@[simp] theorem reset_ovfAt (i : Fin 8) : State.reset.ovfAt i = false := by
  simp [State.ovfAt, Vector.get_eq_getElem]

@[simp] theorem reset_mpAt (i : Fin 4) : State.reset.mpAt i = MPInt.zero := by
  simp [State.mpAt, Vector.get_eq_getElem]

@[simp] theorem reset_byteAt (a : Nat) : State.reset.byteAt a = 0 := rfl

end Sys2Proof.Machine
end

