-- ==== Sys2Proof/Laws/Memory.lean ====
section
/-! SUPPORT. Laws of the slot buffer: what a read after a write gives, and that every write keeps the canonical form and
the range of the buffer; then the big-endian byte lists. -/

namespace Sys2Proof.Machine

/-! ## One byte -/

theorem read_nil (a : Nat) : Memory.read [] a = 0 := rfl

/-- Raising the lower bound weakens nothing: entries from `hi` on are entries from `lo` on. -/
theorem wfFrom_mono {lo hi : Nat} (h : lo ≤ hi) : ∀ {m : Memory}, Memory.wfFrom hi m → Memory.wfFrom lo m
  | [], _ => rfl
  | (a, b) :: m, hm => by
    simp only [Memory.wfFrom, Bool.and_eq_true, decide_eq_true_eq] at hm ⊢
    exact ⟨⟨by omega, hm.1.2⟩, hm.2⟩

/-- An address below every listed one reads as an unlisted byte. -/
theorem read_below {a : Nat} : ∀ {m : Memory} {lo : Nat}, Memory.wfFrom lo m → a < lo → Memory.read m a = unlistedByte
  | [], _, _, _ => rfl
  | (a', b') :: m, lo, hm, ha => by
    simp only [Memory.wfFrom, Bool.and_eq_true, decide_eq_true_eq] at hm
    have hne : a ≠ a' := by omega
    simp only [Memory.read, if_neg hne]
    exact read_below hm.2 (by omega)

/-- A write leaves every other byte alone, whatever the list. -/
theorem read_write_ne {a a' : Nat} (h : a' ≠ a) (b : Byte) :
    ∀ m : Memory, Memory.read (Memory.write m a b) a' = Memory.read m a'
  | [] => by by_cases hb : b = unlistedByte <;> simp [Memory.write, Memory.read, hb, h]
  | (x, y) :: m => by
    unfold Memory.write
    split
    · split <;> simp [Memory.read, h]
    · split
      · rename_i e
        subst e
        split <;> simp [Memory.read, h]
      · simp only [Memory.read]
        rw [read_write_ne h b m]

/-- A read after a write to the same byte gives the byte written. -/
theorem read_write_self (a : Nat) (b : Byte) :
    ∀ {m : Memory} {lo : Nat}, Memory.wfFrom lo m → Memory.read (Memory.write m a b) a = b
  | [], _, _ => by by_cases hb : b = unlistedByte <;> simp [Memory.write, Memory.read, hb]
  | (x, y) :: m, lo, hm => by
    simp only [Memory.wfFrom, Bool.and_eq_true, decide_eq_true_eq] at hm
    unfold Memory.write
    split
    · rename_i hlt
      split
      · rename_i hb
        have hne : a ≠ x := by omega
        simp only [Memory.read, if_neg hne]
        rw [hb]
        exact read_below hm.2 (by omega)
      · simp [Memory.read]
    · split
      · rename_i e
        subst e
        split
        · rename_i hb
          rw [hb]
          exact read_below hm.2 (by omega)
        · simp [Memory.read]
      · rename_i hne
        simp only [Memory.read, if_neg hne]
        exact read_write_self a b hm.2

/-- A write keeps the canonical form. -/
theorem wfFrom_write (a : Nat) (b : Byte) :
    ∀ {m : Memory} {lo : Nat}, lo ≤ a → Memory.wfFrom lo m → Memory.wfFrom lo (Memory.write m a b)
  | [], lo, hlo, _ => by by_cases hb : b = unlistedByte <;> simp [Memory.write, Memory.wfFrom, hb, hlo]
  | (x, y) :: m, lo, hlo, hm => by
    have hm' := hm
    simp only [Memory.wfFrom, Bool.and_eq_true, decide_eq_true_eq] at hm
    unfold Memory.write
    split
    · split
      · exact hm'
      · rename_i hlt hb
        simp only [Memory.wfFrom, Bool.and_eq_true, decide_eq_true_eq]
        exact ⟨⟨hlo, hb⟩, ⟨by omega, hm.1.2⟩, hm.2⟩
    · split
      · split
        · exact wfFrom_mono (by omega) hm.2
        · rename_i e hb
          subst e
          simp only [Memory.wfFrom, Bool.and_eq_true, decide_eq_true_eq]
          exact ⟨⟨hlo, hb⟩, hm.2⟩
      · simp only [Memory.wfFrom, Bool.and_eq_true, decide_eq_true_eq]
        exact ⟨hm.1, wfFrom_write a b (by omega) hm.2⟩

theorem wf_write (a : Nat) (b : Byte) {m : Memory} (h : Memory.wf m) : Memory.wf (Memory.write m a b) :=
  wfFrom_write a b (Nat.zero_le a) h

/-- A write inside the buffer keeps every entry inside it. -/
theorem inBuffer_write {a : Nat} (ha : a < 512) (b : Byte) :
    ∀ {m : Memory}, Memory.inBuffer m → Memory.inBuffer (Memory.write m a b)
  | [], _ => by by_cases hb : b = unlistedByte <;> simp [Memory.write, Memory.inBuffer, hb, ha]
  | (x, y) :: m, hm => by
    have hm' := hm
    simp only [Memory.inBuffer, List.all_cons, Bool.and_eq_true] at hm
    unfold Memory.write
    split
    · split
      · exact hm'
      · simp only [Memory.inBuffer, List.all_cons, Bool.and_eq_true]
        exact ⟨by simpa using ha, hm.1, hm.2⟩
    · split
      · split
        · exact hm.2
        · simp only [Memory.inBuffer, List.all_cons, Bool.and_eq_true]
          exact ⟨by simpa using ha, hm.2⟩
      · simp only [Memory.inBuffer, List.all_cons, Bool.and_eq_true]
        exact ⟨hm.1, inBuffer_write ha b hm.2⟩

/-! ## Byte lists -/

theorem wf_memWrite : ∀ (bs : List Byte) (a : Nat) {m : Memory}, Memory.wf m → Memory.wf (memWrite m a bs)
  | [], _, _, h => h
  | b :: bs, a, _, h => wf_memWrite bs (a + 1) (wf_write a b h)

theorem inBuffer_memWrite :
    ∀ (bs : List Byte) (a : Nat) {m : Memory}, a + bs.length ≤ 512 → Memory.inBuffer m →
      Memory.inBuffer (memWrite m a bs)
  | [], _, _, _, h => h
  | b :: bs, a, _, hl, h => by
    simp only [List.length_cons] at hl
    exact inBuffer_memWrite bs (a + 1) (by omega) (inBuffer_write (by omega) b h)

/-- A write of a byte list leaves every byte outside it alone. -/
theorem read_memWrite_outside {a' : Nat} :
    ∀ (bs : List Byte) (a : Nat) (m : Memory), ¬ (a ≤ a' ∧ a' < a + bs.length) →
      Memory.read (memWrite m a bs) a' = Memory.read m a'
  | [], _, _, _ => rfl
  | b :: bs, a, m, h => by
    simp only [List.length_cons] at h
    simp only [memWrite]
    rw [read_memWrite_outside bs (a + 1) _ (by omega), read_write_ne (by omega)]

/-- A read after a write of a byte list gives the list's bytes, first byte at the lowest address. -/
theorem read_memWrite_inside :
    ∀ (bs : List Byte) (a k : Nat) {m : Memory}, Memory.wf m → (h : k < bs.length) →
      Memory.read (memWrite m a bs) (a + k) = bs[k]
  | [], _, _, _, _, h => by simp at h
  | b :: bs, a, 0, m, hm, _ => by
    simp only [memWrite, Nat.add_zero, List.getElem_cons_zero]
    rw [read_memWrite_outside bs (a + 1) _ (by omega), read_write_self a b hm]
  | b :: bs, a, k + 1, m, hm, h => by
    simp only [List.length_cons] at h
    have := read_memWrite_inside bs (a + 1) k (wf_write a b hm) (by omega)
    simp only [memWrite, List.getElem_cons_succ]
    rw [← this]
    congr 1
    omega

@[simp] theorem length_memRead (m : Memory) : ∀ (a n : Nat), (memRead m a n).length = n
  | _, 0 => rfl
  | a, n + 1 => by simp [memRead, length_memRead m (a + 1) n]

/-- Byte `k` of a read list is the byte at address `a + k`. -/
theorem getElem_memRead (m : Memory) :
    ∀ (a n k : Nat) (h : k < (memRead m a n).length), (memRead m a n)[k] = Memory.read m (a + k)
  | _, 0, _, h => by simp [memRead] at h
  | a, n + 1, 0, _ => by simp [memRead]
  | a, n + 1, k + 1, h => by
    simp only [memRead, List.getElem_cons_succ]
    rw [getElem_memRead m (a + 1) n k]
    congr 1
    omega

@[simp] theorem length_beBytes (v : Nat) : ∀ n, (beBytes v n).length = n
  | 0 => rfl
  | n + 1 => by simp [beBytes, length_beBytes v n]

/-- Byte `k` of `be_bytes(v, n)` (R10). -/
theorem getElem_beBytes (v : Nat) :
    ∀ (n k : Nat) (h : k < (beBytes v n).length), (beBytes v n)[k] = BitVec.ofNat 8 (v / 2 ^ (8 * (n - 1 - k)))
  | 0, _, h => by simp [beBytes] at h
  | n + 1, 0, _ => by simp [beBytes]
  | n + 1, k + 1, h => by
    simp only [beBytes, List.getElem_cons_succ]
    rw [getElem_beBytes v n k]
    congr 4
    omega

/-- A list of `n` bytes is an integer below `2^(8n)`. -/
theorem be_lt : ∀ bs : List Byte, be bs < 2 ^ (8 * bs.length)
  | [] => by simp [be]
  | b :: bs => by
    have ih := be_lt bs
    have hb : b.toNat < 256 := b.isLt
    have : 2 ^ (8 * (b :: bs).length) = 256 * 2 ^ (8 * bs.length) := by
      rw [List.length_cons, Nat.mul_add, Nat.pow_add]; omega
    rw [this, be]
    have : b.toNat * 2 ^ (8 * bs.length) ≤ 255 * 2 ^ (8 * bs.length) := Nat.mul_le_mul_right _ (by omega)
    omega

/-- `be` inverts `be_bytes`, up to the bytes there are (R10). -/
theorem be_beBytes (v : Nat) : ∀ n, be (beBytes v n) = v % 2 ^ (8 * n)
  | 0 => by simp [be, beBytes, Nat.mod_one]
  | n + 1 => by
    have e : 2 ^ (8 * (n + 1)) = 2 ^ (8 * n) * 256 := by rw [Nat.mul_add, Nat.pow_add]
    rw [beBytes, be, length_beBytes, be_beBytes v n, e, Nat.mod_mul, BitVec.toNat_ofNat]
    simp only [Nat.reducePow]
    rw [Nat.mul_comm (v / 2 ^ (8 * n) % 256), Nat.add_comm]

/-- The slot read after the slot written (R222). -/
theorem memRead_memWrite (bs : List Byte) (a : Nat) {m : Memory} (h : Memory.wf m) :
    memRead (memWrite m a bs) a bs.length = bs := by
  apply List.ext_getElem (by simp)
  intro k h1 h2
  rw [getElem_memRead, read_memWrite_inside bs a k h h2]

theorem slotAddress_le (slot : SlotField) : slotAddress slot + 32 ≤ 512 := by
  have := slot.isLt
  simp only [slotAddress, Config.slotBytes]
  omega

/-- Writing a slot keeps the canonical form and the range of the buffer. -/
theorem setSlot_keeps (s : State) (slot : SlotField) (v : Nat) (h : Memory.wf s.sb) (hb : Memory.inBuffer s.sb) :
    Memory.wf (s.setSlot slot v).sb ∧ Memory.inBuffer (s.setSlot slot v).sb := by
  rw [setSlot_sb]
  refine ⟨wf_memWrite _ _ h, inBuffer_memWrite _ _ ?_ hb⟩
  rw [length_beBytes]
  exact slotAddress_le slot

/-- Reading back a slot just written gives the integer written, if it fits 256 bits. -/
theorem slotValue_setSlot (s : State) (slot : SlotField) {v : Nat} (h : Memory.wf s.sb) (hv : v < 2 ^ 256) :
    (s.setSlot slot v).slotValue slot = v := by
  have e := memRead_memWrite (beBytes v 32) (slotAddress slot) h
  rw [length_beBytes] at e
  simp only [State.slotValue, setSlot_sb, Config.slotBytes, e, be_beBytes]
  exact Nat.mod_eq_of_lt hv

theorem slotValue_lt (s : State) (slot : SlotField) : s.slotValue slot < 2 ^ 256 := by
  have := be_lt (memRead s.sb (slotAddress slot) 32)
  rwa [length_memRead] at this

@[simp] theorem reset_sb_wf : Memory.wf State.reset.sb = true := rfl
@[simp] theorem reset_sb_inBuffer : Memory.inBuffer State.reset.sb = true := rfl

end Sys2Proof.Machine
end

