-- ==== Sys2Proof/Laws/Ops.lean ====
section
/-! SUPPORT. One lemma per shared operation that says once everything it can do, for the proofs to cite. -/

namespace Sys2Proof.Machine

/-! ## Operands -/

theorem wIndex_val {f : RegField} (h : isWReg f = true) : (wIndex f).val = f.toNat := by
  simp only [isWReg, Config.nw, decide_eq_true_eq] at h
  exact Nat.mod_eq_of_lt h

theorem mIndex_val {f : RegField} (h : isMReg f = true) : (mIndex f).val = f.toNat := by
  simp only [isMReg, Config.nm, decide_eq_true_eq] at h
  exact Nat.mod_eq_of_lt h

/-- Two legal fields that name one Word256 register are one field (R92). -/
theorem wIndex_inj {f g : RegField} (hf : isWReg f = true) (hg : isWReg g = true) (h : wIndex f = wIndex g) : f = g := by
  apply BitVec.eq_of_toNat_eq
  rw [← wIndex_val hf, ← wIndex_val hg, h]

/-- Two legal fields that name one MPInt register are one field (R92). -/
theorem mIndex_inj {f g : RegField} (hf : isMReg f = true) (hg : isMReg g = true) (h : mIndex f = mIndex g) : f = g := by
  apply BitVec.eq_of_toNat_eq
  rw [← mIndex_val hf, ← mIndex_val hg, h]

/-- The eight and the four legal fields name the eight and the four registers (R92). -/
@[simp] theorem wIndex_wField : ∀ i : Fin 8, wIndex (wField i) = i := by decide
@[simp] theorem mIndex_mField : ∀ i : Fin 4, mIndex (mField i) = i := by decide
@[simp] theorem isWReg_wField : ∀ i : Fin 8, isWReg (wField i) = true := by decide
@[simp] theorem isMReg_mField : ∀ i : Fin 4, isMReg (mField i) = true := by decide

/-- Every legal field is the field of the register it names (R92). -/
theorem wField_wIndex : ∀ f : RegField, isWReg f = true → wField (wIndex f) = f := by decide
theorem mField_mIndex : ∀ f : RegField, isMReg f = true → mField (mIndex f) = f := by decide

/-! ## The shapes of a command -/

theorem whenLegal_legal {i : Instr} (h : i.wellFormed = true) (s : State) (r : Result) : whenLegal i s r = r := by
  simp [whenLegal, h]

theorem whenLegal_illegal {i : Instr} (h : i.wellFormed = false) (s : State) (r : Result) :
    whenLegal i s r = .next (s.takeFault .illegalCmd (encode i)) := by
  simp [whenLegal, h, raise]

/-- What a command guarded by its legality answers: its own result, or the ILLEGAL_CMD entry. -/
theorem whenLegal_cases (i : Instr) (s : State) (r : Result) :
    (i.wellFormed = true ∧ whenLegal i s r = r) ∨
      (i.wellFormed = false ∧ whenLegal i s r = .next (s.takeFault .illegalCmd (encode i))) := by
  cases h : i.wellFormed
  · exact .inr ⟨rfl, whenLegal_illegal h s r⟩
  · exact .inl ⟨rfl, whenLegal_legal h s r⟩

theorem wordOp_next {i : Instr} (h : i.wellFormed = true) (f : Value256 → Value256 → Value256) (rd rs1 rs2 : RegField)
    (s : State) :
    wordOp i f rd rs1 rs2 s =
      .next (s.setWord (wIndex rd) (f (s.wordAt (wIndex rs1)) (s.wordAt (wIndex rs2))) false) := by
  simp [wordOp, whenLegal_legal h, nonMultiplyOvf]

theorem shiftOp_next {i : Instr} (h : i.wellFormed = true) (f : Value256 → Nat → Value256) (rd rs1 : RegField)
    (imm16 : ShiftAmount) (s : State) :
    shiftOp i f rd rs1 imm16 s =
      .next (s.setWord (wIndex rd) (f (s.wordAt (wIndex rs1)) imm16.toNat) false) := by
  simp [shiftOp, whenLegal_legal h, nonMultiplyOvf, shiftAmount]

theorem moveHalf_next {i : Instr} (h : i.wellFormed = true) (half : Value512 → Value256) (rd : RegField) (s : State) :
    moveHalf i half rd s = .next (s.setWord (wIndex rd) (half s.p) false) := by
  simp [moveHalf, whenLegal_legal h, nonMultiplyOvf]

/-- What writing an exact integer answers: the integer's register below the capacity, the MP_CAPACITY entry from it on. -/
theorem writeInteger_cases (i : Instr) (rd : RegField) (v : Int) (s : State) :
    (v.natAbs < 2 ^ 280 ∧ writeInteger i rd v s = .next (s.setMp (mIndex rd) (mpFromInt v))) ∨
      (2 ^ 280 ≤ v.natAbs ∧ writeInteger i rd v s = .next (s.takeFault .mpCapacity (encode i))) := by
  by_cases h : v.natAbs ≥ 2 ^ Config.capacityBits
  · exact .inr ⟨h, by simp only [writeInteger, if_pos h, raise]⟩
  · exact .inl ⟨Nat.lt_of_not_ge h, by simp only [writeInteger, if_neg h]⟩

/-! ## Host operations -/

/-- What a command write answers: nothing while faulted, the ILLEGAL_CMD entry, or the command's own result. -/
theorem runCommand_cases (c : Word) (s : State) :
    (s.fault = true ∧ runCommand c s = .next s) ∨
      (s.fault = false ∧ (∃ e, decode c = .error e) ∧ runCommand c s = .next (s.takeFault .illegalCmd c)) ∨
      (s.fault = false ∧ ∃ i, decode c = .ok i ∧ runCommand c s = exec i s) := by
  cases h : s.fault
  · cases hd : decode c with
    | error e => exact .inr (.inl ⟨rfl, ⟨e, rfl⟩, by simp [runCommand, h, hd]⟩)
    | ok i => exact .inr (.inr ⟨rfl, i, rfl, by simp [runCommand, h, hd]⟩)
  · exact .inl ⟨rfl, by simp [runCommand, h]⟩

/-- What one access does: an operation of R8, or no effect but the 0 a stray read returns (R64). -/
theorem performAccess_cases (x : HostAccess) (s : State) :
    (∃ o, performAccess x s = perform o s) ∨ performAccess x s = .next s ∨
      ∃ n, performAccess x s = .next { s with hostRead := some (.zero n) } := by
  cases x with
  | op o => exact .inl ⟨o, rfl⟩
  | windowWrite offset bytes value =>
    cases h : writeOperation offset bytes value with
    | none => exact .inr (.inl (by simp [performAccess, h]))
    | some o => exact .inl ⟨o, by simp [performAccess, h]⟩
  | windowRead offset bytes =>
    cases h : readOperation offset bytes with
    | none => exact .inr (.inr ⟨bytes, by simp [performAccess, h]⟩)
    | some o => exact .inl ⟨o, by simp [performAccess, h]⟩

theorem step_idle {s : State} (h : s.pending = []) : step s = .next s := by
  simp [step, hostStep, h]

theorem step_perform {s : State} {x : HostAccess} {rest : List HostAccess} (h : s.pending = x :: rest) :
    step s = performAccess x (performing rest s) := by
  simp [step, hostStep, h, performing]

theorem step_command {s : State} {c : Word} {rest : List HostAccess} :
    step (nextCommand c rest s) = runCommand c (performing rest s) := rfl

end Sys2Proof.Machine
end

