-- ==== Sys2Proof/Laws/Digits.lean ====
section
/-! SUPPORT. Small lemmas about digit vectors and their integer value (`00_scope.md` R10, `10_state.md` R26). -/

namespace Sys2Proof.Machine

theorem digitAt_lt (dp : Vector Digit 10) (k : Nat) : digitAt dp k < 2 ^ 28 := (dp[k]?.getD 0).isLt

theorem digitAt_of_lt (dp : Vector Digit 10) {k : Nat} (h : k < 10) : digitAt dp k = dp[k].toNat := by
  simp [digitAt, h]

theorem digitAt_above (dp : Vector Digit 10) {k : Nat} (h : 10 ≤ k) : digitAt dp k = 0 := by
  simp [digitAt, h]

theorem digitAt_digitsOf (f : Nat → Nat) {k : Nat} (h : k < 10) : digitAt (digitsOf f) k = f k % 2 ^ 28 := by
  rw [digitAt_of_lt _ h]
  simp [digitsOf]

/-- Two digit vectors that agree at every position are one vector. -/
theorem digits_ext {a b : Vector Digit 10} (h : ∀ k < 10, digitAt a k = digitAt b k) : a = b := by
  apply Vector.ext
  intro k hk
  apply BitVec.eq_of_toNat_eq
  rw [← digitAt_of_lt a hk, ← digitAt_of_lt b hk, h k hk]

/-- `n` digits make an integer below `2^(28n)`. -/
theorem digitSum_lt (dp : Vector Digit 10) : ∀ n, digitSum dp n < 2 ^ (28 * n)
  | 0 => by simp [digitSum]
  | n + 1 => by
    have ih := digitSum_lt dp n
    have hd : digitAt dp n ≤ 2 ^ 28 - 1 := Nat.le_pred_of_lt (digitAt_lt dp n)
    have e : 2 ^ (28 * (n + 1)) = 2 ^ 28 * 2 ^ (28 * n) := by rw [Nat.mul_add, Nat.pow_add, Nat.mul_comm]
    have : digitAt dp n * 2 ^ (28 * n) ≤ (2 ^ 28 - 1) * 2 ^ (28 * n) := Nat.mul_le_mul_right _ hd
    rw [e, digitSum, Config.digitBits]
    have e2 : (2 ^ 28 - 1) * 2 ^ (28 * n) = 2 ^ 28 * 2 ^ (28 * n) - 2 ^ (28 * n) := by
      rw [Nat.sub_mul, Nat.one_mul]
    have : 2 ^ (28 * n) ≤ 2 ^ 28 * 2 ^ (28 * n) := Nat.le_mul_of_pos_left _ (by decide)
    omega

theorem mag_lt (m : MPInt) : mag m < 2 ^ 280 := by
  refine lt_of_lt_of_le (digitSum_lt m.dp m.used.val) (Nat.pow_le_pow_right (by decide) ?_)
  have := m.used.isLt
  omega

theorem val_natAbs (m : MPInt) : (val m).natAbs = mag m := by
  unfold val
  split <;> simp

@[simp] theorem mag_zero : mag MPInt.zero = 0 := rfl
@[simp] theorem val_zero : val MPInt.zero = 0 := rfl

/-- What `normalized` says, item by item (R27). -/
theorem normalized_iff (m : MPInt) :
    normalized m = true ↔
      (m.used = 0 ∨ digitAt m.dp (m.used.val - 1) ≠ 0) ∧ (m.used = 0 → m.sign = false) ∧
        ∀ k, m.used.val ≤ k → digitAt m.dp k = 0 := by
  simp only [normalized, Bool.and_eq_true, decide_eq_true_eq, List.all_eq_true, List.mem_range, Config.mpCap]
  constructor
  · rintro ⟨⟨h1, h2⟩, h3⟩
    refine ⟨h1, h2, fun k hk => ?_⟩
    by_cases h : k < 10
    · exact h3 k h hk
    · exact digitAt_above _ (by omega)
  · rintro ⟨h1, h2, h3⟩
    exact ⟨⟨h1, h2⟩, fun k _ hk => h3 k hk⟩

theorem normalized_zero : normalized MPInt.zero = true := by decide

end Sys2Proof.Machine
end

