-- ==== Sys2Proof/Laws/Exec.lean ====
section
/-! SUPPORT. What one command can do, said once for all twenty: a proof about every command takes it apart with
`exec_cases` and unfolds no meaning. -/

namespace Sys2Proof.Machine

/-- A command that is not legal takes the ILLEGAL_CMD entry (R92, `notes/assumptions/4.md`). -/
theorem exec_illegal {i : Instr} (h : i.wellFormed = false) (s : State) :
    exec i s = .next (s.takeFault .illegalCmd (encode i)) := by
  cases i
  case nop => simp [Instr.wellFormed] at h
  all_goals exact whenLegal_illegal h s _

theorem signedMagnitude_natAbs (sign : Bool) (v : Nat) : (signedMagnitude sign v).natAbs = v := by
  unfold signedMagnitude
  split <;> simp

theorem slotValue_lt_capacity (s : State) (slot : SlotField) : s.slotValue slot < 2 ^ 280 :=
  lt_of_lt_of_le (slotValue_lt s slot) (Nat.pow_le_pow_right (by decide) (by decide))

/-- Everything a command can do: write its Word256 register (with `P`, if it is `WMUL`; with a clear flag, if not), write an
integer that fits to its MPInt register, write its slot, change nothing, write STATUS.CMP, write STATUS.MSIGN and MUSED, or
take a fault and change nothing else. -/
theorem exec_cases (i : Instr) (s : State) :
    (∃ d v, wordDestination i = some d ∧ exec i s = .next (s.setWord d v false)) ∨
    (∃ rd a b v o p, i = .wmul rd a b ∧ exec i s = .next ({ s with p := p }.setWord (wIndex rd) v o)) ∨
    (∃ d x, mpDestination i = some d ∧ x.natAbs < 2 ^ 280 ∧ faultRaised i s = none ∧ exec i s = .next (s.setMp d (mpFromInt x))) ∨
    (∃ slot v, slotDestination i = some slot ∧ faultRaised i s = none ∧ exec i s = .next (s.setSlot slot v)) ∨
    (i = .nop ∧ exec i s = .next s) ∨
    (∃ r, (∃ a b, i = .mcmp a b ∨ i = .mcmpmag a b) ∧ exec i s = .next (setCmp r s)) ∨
    (∃ m : MPInt, (∃ a, i = .minfo a) ∧ exec i s = .next { s with msign := m.sign, mused := usedField m.used }) ∨
    (∃ f, (i.wellFormed = false ∧ f = .illegalCmd ∨ i.wellFormed = true ∧ faultRaised i s = some f) ∧
      exec i s = .next (s.takeFault f (encode i))) := by
  cases hw : i.wellFormed
  · exact .inr <| .inr <| .inr <| .inr <| .inr <| .inr <| .inr ⟨_, .inl ⟨rfl, rfl⟩, exec_illegal hw s⟩
  cases i
  case nop => exact .inr <| .inr <| .inr <| .inr <| .inl ⟨rfl, rfl⟩
  case wmul => exact .inr <| .inl ⟨_, _, _, _, _, _, rfl, whenLegal_legal hw _ _⟩
  case wst => exact .inr <| .inr <| .inr <| .inl ⟨_, _, rfl, rfl, whenLegal_legal hw _ _⟩
  case mld r sign slot =>
    refine .inr <| .inr <| .inl ⟨_, _, rfl, ?_, rfl, whenLegal_legal hw _ _⟩
    rw [signedMagnitude_natAbs]
    exact slotValue_lt_capacity s slot
  case mst r slot =>
    have e : exec (.mst r slot) s = _ := whenLegal_legal hw s _
    rw [e]
    by_cases h : mag (s.mpAt (mIndex r)) ≥ 2 ^ Config.narrowBits
    · refine .inr <| .inr <| .inr <| .inr <| .inr <| .inr <| .inr ⟨_, .inr ⟨rfl, if_pos h⟩, ?_⟩
      simp only [if_pos h, raise]
    · refine .inr <| .inr <| .inr <| .inl ⟨slot, mag (s.mpAt (mIndex r)), rfl, if_neg h, ?_⟩
      simp only [if_neg h]
  case madd rd a b =>
    have e : exec (.madd rd a b) s = _ := whenLegal_legal hw s _
    rw [e]
    rcases writeInteger_cases (.madd rd a b) rd (val (s.mpAt (mIndex a)) + val (s.mpAt (mIndex b))) s with ⟨h, e⟩ | ⟨h, e⟩
    · exact .inr <| .inr <| .inl ⟨_, _, rfl, h, if_neg (Nat.not_le.2 h), e⟩
    · exact .inr <| .inr <| .inr <| .inr <| .inr <| .inr <| .inr ⟨_, .inr ⟨rfl, if_pos h⟩, e⟩
  case msub rd a b =>
    have e : exec (.msub rd a b) s = _ := whenLegal_legal hw s _
    rw [e]
    rcases writeInteger_cases (.msub rd a b) rd (val (s.mpAt (mIndex a)) - val (s.mpAt (mIndex b))) s with ⟨h, e⟩ | ⟨h, e⟩
    · exact .inr <| .inr <| .inl ⟨_, _, rfl, h, if_neg (Nat.not_le.2 h), e⟩
    · exact .inr <| .inr <| .inr <| .inr <| .inr <| .inr <| .inr ⟨_, .inr ⟨rfl, if_pos h⟩, e⟩
  case mcmp => exact .inr <| .inr <| .inr <| .inr <| .inr <| .inl ⟨_, ⟨_, _, .inl rfl⟩, whenLegal_legal hw _ _⟩
  case mcmpmag => exact .inr <| .inr <| .inr <| .inr <| .inr <| .inl ⟨_, ⟨_, _, .inr rfl⟩, whenLegal_legal hw _ _⟩
  case minfo a =>
    exact .inr <| .inr <| .inr <| .inr <| .inr <| .inr <| .inl ⟨s.mpAt (mIndex a), ⟨_, rfl⟩, whenLegal_legal hw _ _⟩
  all_goals exact .inl ⟨_, _, rfl, whenLegal_legal hw _ _⟩

/-- A command leaves the host's side of the run as it is. -/
theorem exec_host {i : Instr} {s t : State} (h : exec i s = .next t) : SameHost s t := by
  rcases exec_cases i s with ⟨d, v, -, e⟩ | ⟨rd, a, b, v, o, p, -, e⟩ | ⟨d, x, -, -, -, e⟩ | ⟨slot, v, -, -, e⟩ | ⟨-, e⟩ |
    ⟨r, -, e⟩ | ⟨m, -, e⟩ | ⟨f, -, e⟩ <;> rw [e] at h <;> cases h
  case inr.inr.inr.inl => exact ⟨setSlot_pending s slot v, setSlot_hostRead s slot v⟩
  all_goals exact ⟨rfl, rfl⟩

end Sys2Proof.Machine
end

