-- ==== Sys2Proof/Laws/Frames.lean ====
section
/-! SUPPORT. What each update of the state leaves unchanged, in the terms of `Safety.lean`. -/

namespace Sys2Proof.Machine

theorem sameWords_of_w {s t : State} (h : t.w = s.w) : SameWords s t :=
  fun j => ⟨wordAt_congr h j, ovfAt_congr h j⟩

theorem sameMps_of_m {s t : State} (h : t.m = s.m) : SameMps s t := fun j => mpAt_congr h j

theorem sameBytes_of_sb {s t : State} (h : t.sb = s.sb) : SameBytes s t := fun a => byteAt_congr h a

/-- Writing a Word256 register changes that register alone. -/
theorem onlyWord_setWord (s : State) (d : Fin 8) (v : Value256) (o : Bool) : OnlyWord d s (s.setWord d v o) :=
  ⟨fun _ hj => ⟨wordAt_setWord_ne s v o hj, ovfAt_setWord_ne s v o hj⟩, rfl, sameMps_of_m rfl, sameBytes_of_sb rfl,
    ⟨rfl, rfl, rfl⟩, ⟨rfl, rfl, rfl, rfl⟩, rfl, rfl⟩

/-- Writing an MPInt register changes that register alone. -/
theorem onlyMp_setMp (s : State) (d : Fin 4) (v : MPInt) : OnlyMp d s (s.setMp d v) :=
  ⟨sameWords_of_w rfl, rfl, fun _ hj => mpAt_setMp_ne s v hj, sameBytes_of_sb rfl, ⟨rfl, rfl, rfl⟩, ⟨rfl, rfl, rfl, rfl⟩,
    rfl, rfl⟩

/-- Writing a slot changes its 32 bytes alone. -/
theorem onlySlot_setSlot (s : State) (slot : SlotField) (v : Nat) : OnlySlot slot s (s.setSlot slot v) := by
  refine ⟨sameWords_of_w (setSlot_w s slot v), setSlot_p s slot v, sameMps_of_m (setSlot_m s slot v), ?_,
    ⟨setSlot_cmp s slot v, setSlot_msign s slot v, setSlot_mused s slot v⟩,
    ⟨setSlot_fault s slot v, setSlot_fcause s slot v, setSlot_fcmd s slot v, setSlot_finfo s slot v⟩,
    setSlot_pending s slot v, setSlot_hostRead s slot v⟩
  intro a ha
  simp only [State.byteAt, setSlot_sb]
  exact read_memWrite_outside _ _ _ (by rwa [length_beBytes])

/-- Taking a fault changes the fault record alone (R264). -/
theorem onlyFaultRecord_takeFault (s : State) (f : FaultCause) (c : Word) : OnlyFaultRecord s (s.takeFault f c) :=
  ⟨sameWords_of_w rfl, rfl, sameMps_of_m rfl, sameBytes_of_sb rfl, ⟨rfl, rfl, rfl⟩, rfl, rfl⟩

theorem recorded_takeFault (s : State) (f : FaultCause) (c : Word) :
    Recorded f (causeInfo f).toNat c (s.takeFault f c) :=
  ⟨rfl, rfl, rfl, by simp⟩

/-- Byte `k` of a slot just written: the big-endian byte of the integer written (R221). -/
theorem byteAt_setSlot {s : State} (slot : SlotField) (v : Nat) (h : Memory.wf s.sb = true) {k : Nat} (hk : k < 32) :
    ((s.setSlot slot v).byteAt (slotAddress slot + k)).toNat = v / 2 ^ (8 * (31 - k)) % 256 := by
  simp only [State.byteAt, setSlot_sb]
  rw [read_memWrite_inside (beBytes v 32) (slotAddress slot) k h (by simpa using hk), getElem_beBytes]
  simp

/-- A slot byte is the big-endian byte of the slot's integer (R61). -/
theorem be_byte : ∀ (bs : List Byte) (k : Nat) (h : k < bs.length),
    be bs / 2 ^ (8 * (bs.length - 1 - k)) % 256 = bs[k].toNat
  | [], _, h => by simp at h
  | b :: bs, 0, _ => by
    have hlt := be_lt bs
    simp only [be, List.length_cons, Nat.add_sub_cancel, Nat.sub_zero, List.getElem_cons_zero]
    rw [Nat.add_comm, Nat.add_mul_div_right _ _ (Nat.two_pow_pos _), Nat.div_eq_of_lt hlt, Nat.zero_add]
    exact Nat.mod_eq_of_lt b.isLt
  | b :: bs, k + 1, h => by
    simp only [List.length_cons, Nat.add_lt_add_iff_right] at h
    have ih := be_byte bs k h
    simp only [be, List.length_cons, List.getElem_cons_succ]
    have e : bs.length + 1 - 1 - (k + 1) = bs.length - 1 - k := by omega
    rw [e, ← ih]
    have hs : 8 * bs.length = 8 * (bs.length - 1 - k) + 8 * k + 8 := by omega
    have : b.toNat * 2 ^ (8 * bs.length) = 2 ^ (8 * (bs.length - 1 - k)) * (256 * (b.toNat * 2 ^ (8 * k))) := by
      conv_lhs => rw [hs, Nat.pow_add, Nat.pow_add]
      ring
    rw [this, Nat.mul_add_div (Nat.two_pow_pos _), Nat.mul_add_mod]

end Sys2Proof.Machine
end

