-- ==== Sys2Proof/Laws/PerInstr.lean ====
section
/-! SUPPORT. The per-instruction family `OpcodeRow`: the word of a well-formed command is hit by the row of the opcode map
that names it, and the row's fields give the command back (`30_encoding.md` R100, R101). -/

namespace Sys2Proof.Laws.OpcodeRow

/-- The mnemonic of the row of R100 that a command belongs to. -/
def mnemonicOf : Instr → String
  | .nop => "NOP"
  | .wadd _ _ _ => "WADD"
  | .wsub _ _ _ => "WSUB"
  | .wmul _ _ _ => "WMUL"
  | .wand _ _ _ => "WAND"
  | .wor _ _ _ => "WOR"
  | .wxor _ _ _ => "WXOR"
  | .wshl _ _ _ => "WSHL"
  | .wshr _ _ _ => "WSHR"
  | .wmvpl _ => "WMVPL"
  | .wmvph _ => "WMVPH"
  | .wld _ _ => "WLD"
  | .wst _ _ => "WST"
  | .mld _ _ _ => "MLD"
  | .mst _ _ => "MST"
  | .madd _ _ _ => "MADD"
  | .msub _ _ _ => "MSUB"
  | .mcmp _ _ => "MCMP"
  | .mcmpmag _ _ => "MCMPMAG"
  | .minfo _ => "MINFO"

/-- Its row hits the word of the command, and reads the command back from it. -/
def Statement (i : Instr) : Prop :=
  i.wellFormed = true →
    ∃ row ∈ opcodeMap, row.mnemonic = mnemonicOf i ∧ row.hits (encode i) = true ∧ row.fields (encode i) = i

/-! ## The masks of R100 as appended field masks -/

theorem mask_www : 0xFF888FFF#32 = 0xFF#8 ++ 8#4 ++ 8#4 ++ 8#4 ++ 0xFFF#12 := by decide
theorem mask_ww_imm : 0xFF880000#32 = 0xFF#8 ++ 8#4 ++ 8#4 ++ 0#16 := by decide
theorem mask_w : 0xFF8FFFFF#32 = 0xFF#8 ++ 8#4 ++ 15#4 ++ 15#4 ++ 0xFFF#12 := by decide
theorem mask_w_slot : 0xFF8FFFF0#32 = 0xFF#8 ++ 8#4 ++ 7#3 ++ BitVec.ofBool true ++ 0xFFF#12 ++ 0#4 := by decide
theorem mask_m_sign_slot :
    0xFFCEFFF0#32 = 0xFF#8 ++ 12#4 ++ 7#3 ++ BitVec.ofBool false ++ 0xFFF#12 ++ 0#4 := by decide
theorem mask_m_slot : 0xFFCFFFF0#32 = 0xFF#8 ++ 12#4 ++ 7#3 ++ BitVec.ofBool true ++ 0xFFF#12 ++ 0#4 := by decide
theorem mask_mmm : 0xFFCCCFFF#32 = 0xFF#8 ++ 12#4 ++ 12#4 ++ 12#4 ++ 0xFFF#12 := by decide
theorem mask_mm : 0xFFFCCFFF#32 = 0xFF#8 ++ 15#4 ++ 12#4 ++ 12#4 ++ 0xFFF#12 := by decide
theorem mask_m : 0xFFFCFFFF#32 = 0xFF#8 ++ 15#4 ++ 12#4 ++ 15#4 ++ 0xFFF#12 := by decide

/-! ## A word under its mask is its opcode alone -/

theorem hits_www (op : BitVec 8) {rd rs1 rs2 : RegField} (hd : isWReg rd = true) (h1 : isWReg rs1 = true)
    (h2 : isWReg rs2 = true) : formatR op rd rs1 rs2 &&& 0xFF888FFF#32 = formatR (op &&& 0xFF#8) 0 0 0 := by
  rw [mask_www, formatR_and, isWReg_and _ hd, isWReg_and _ h1, isWReg_and _ h2]

theorem hits_ww_imm (op : BitVec 8) {rd rs1 : RegField} (imm16 : ShiftAmount) (hd : isWReg rd = true)
    (h1 : isWReg rs1 = true) : formatI op rd rs1 imm16 &&& 0xFF880000#32 = formatI (op &&& 0xFF#8) 0 0 0 := by
  rw [mask_ww_imm, formatI_and, isWReg_and _ hd, isWReg_and _ h1, BitVec.and_zero]; rfl

theorem hits_w (op : BitVec 8) {rd : RegField} (hd : isWReg rd = true) :
    formatR op rd 0 0 &&& 0xFF8FFFFF#32 = formatR (op &&& 0xFF#8) 0 0 0 := by
  rw [mask_w, formatR_and, isWReg_and _ hd]; rfl

theorem hits_w_slot (op : BitVec 8) {r : RegField} (slot : SlotField) (h : isWReg r = true) :
    formatM op r false slot &&& 0xFF8FFFF0#32 = formatM (op &&& 0xFF#8) 0 false 0 := by
  rw [mask_w_slot, formatM_and, isWReg_and _ h, BitVec.and_zero]; rfl

theorem hits_m_sign_slot (op : BitVec 8) {r : RegField} (s : Bool) (slot : SlotField) (h : isMReg r = true) :
    formatM op r s slot &&& 0xFFCEFFF0#32 = formatM (op &&& 0xFF#8) 0 false 0 := by
  rw [mask_m_sign_slot, formatM_and, isMReg_and _ h, BitVec.and_zero, Bool.and_false]; rfl

theorem hits_m_slot (op : BitVec 8) {r : RegField} (slot : SlotField) (h : isMReg r = true) :
    formatM op r false slot &&& 0xFFCFFFF0#32 = formatM (op &&& 0xFF#8) 0 false 0 := by
  rw [mask_m_slot, formatM_and, isMReg_and _ h, BitVec.and_zero]; rfl

theorem hits_mmm (op : BitVec 8) {rd rs1 rs2 : RegField} (hd : isMReg rd = true) (h1 : isMReg rs1 = true)
    (h2 : isMReg rs2 = true) : formatR op rd rs1 rs2 &&& 0xFFCCCFFF#32 = formatR (op &&& 0xFF#8) 0 0 0 := by
  rw [mask_mmm, formatR_and, isMReg_and _ hd, isMReg_and _ h1, isMReg_and _ h2]

theorem hits_mm (op : BitVec 8) {rs1 rs2 : RegField} (h1 : isMReg rs1 = true) (h2 : isMReg rs2 = true) :
    formatR op 0 rs1 rs2 &&& 0xFFFCCFFF#32 = formatR (op &&& 0xFF#8) 0 0 0 := by
  rw [mask_mm, formatR_and, isMReg_and _ h1, isMReg_and _ h2]; rfl

theorem hits_m (op : BitVec 8) {rs1 : RegField} (h1 : isMReg rs1 = true) :
    formatR op 0 rs1 0 &&& 0xFFFCFFFF#32 = formatR (op &&& 0xFF#8) 0 0 0 := by
  rw [mask_m, formatR_and, isMReg_and _ h1]; rfl

/-! ## One lemma per command -/

theorem nop : Statement .nop := fun _ => ⟨opcodeMap[0], by simp [opcodeMap], rfl, by decide, rfl⟩

theorem wadd (rd rs1 rs2 : RegField) : Statement (.wadd rd rs1 rs2) := fun h => by
  simp only [Instr.wellFormed, Bool.and_eq_true] at h
  refine ⟨opcodeMap[1], by simp [opcodeMap], rfl, ?_, ?_⟩
  · simp only [opcodeMap, OpcodeRow.hits, encode, List.getElem_cons_succ, List.getElem_cons_zero, hits_www _ h.1.1 h.1.2 h.2]
    decide
  · simp [opcodeMap, encode, fieldsR]

theorem wsub (rd rs1 rs2 : RegField) : Statement (.wsub rd rs1 rs2) := fun h => by
  simp only [Instr.wellFormed, Bool.and_eq_true] at h
  refine ⟨opcodeMap[2], by simp [opcodeMap], rfl, ?_, ?_⟩
  · simp only [opcodeMap, OpcodeRow.hits, encode, List.getElem_cons_succ, List.getElem_cons_zero, hits_www _ h.1.1 h.1.2 h.2]
    decide
  · simp [opcodeMap, encode, fieldsR]

theorem wmul (rd rs1 rs2 : RegField) : Statement (.wmul rd rs1 rs2) := fun h => by
  simp only [Instr.wellFormed, Bool.and_eq_true] at h
  refine ⟨opcodeMap[3], by simp [opcodeMap], rfl, ?_, ?_⟩
  · simp only [opcodeMap, OpcodeRow.hits, encode, List.getElem_cons_succ, List.getElem_cons_zero, hits_www _ h.1.1 h.1.2 h.2]
    decide
  · simp [opcodeMap, encode, fieldsR]

theorem wand (rd rs1 rs2 : RegField) : Statement (.wand rd rs1 rs2) := fun h => by
  simp only [Instr.wellFormed, Bool.and_eq_true] at h
  refine ⟨opcodeMap[4], by simp [opcodeMap], rfl, ?_, ?_⟩
  · simp only [opcodeMap, OpcodeRow.hits, encode, List.getElem_cons_succ, List.getElem_cons_zero, hits_www _ h.1.1 h.1.2 h.2]
    decide
  · simp [opcodeMap, encode, fieldsR]

theorem wor (rd rs1 rs2 : RegField) : Statement (.wor rd rs1 rs2) := fun h => by
  simp only [Instr.wellFormed, Bool.and_eq_true] at h
  refine ⟨opcodeMap[5], by simp [opcodeMap], rfl, ?_, ?_⟩
  · simp only [opcodeMap, OpcodeRow.hits, encode, List.getElem_cons_succ, List.getElem_cons_zero, hits_www _ h.1.1 h.1.2 h.2]
    decide
  · simp [opcodeMap, encode, fieldsR]

theorem wxor (rd rs1 rs2 : RegField) : Statement (.wxor rd rs1 rs2) := fun h => by
  simp only [Instr.wellFormed, Bool.and_eq_true] at h
  refine ⟨opcodeMap[6], by simp [opcodeMap], rfl, ?_, ?_⟩
  · simp only [opcodeMap, OpcodeRow.hits, encode, List.getElem_cons_succ, List.getElem_cons_zero, hits_www _ h.1.1 h.1.2 h.2]
    decide
  · simp [opcodeMap, encode, fieldsR]

theorem wshl (rd rs1 : RegField) (imm16 : ShiftAmount) : Statement (.wshl rd rs1 imm16) := fun h => by
  simp only [Instr.wellFormed, Bool.and_eq_true] at h
  refine ⟨opcodeMap[7], by simp [opcodeMap], rfl, ?_, ?_⟩
  · simp only [opcodeMap, OpcodeRow.hits, encode, List.getElem_cons_succ, List.getElem_cons_zero, hits_ww_imm _ imm16 h.1 h.2]
    decide
  · simp [opcodeMap, encode]

theorem wshr (rd rs1 : RegField) (imm16 : ShiftAmount) : Statement (.wshr rd rs1 imm16) := fun h => by
  simp only [Instr.wellFormed, Bool.and_eq_true] at h
  refine ⟨opcodeMap[8], by simp [opcodeMap], rfl, ?_, ?_⟩
  · simp only [opcodeMap, OpcodeRow.hits, encode, List.getElem_cons_succ, List.getElem_cons_zero, hits_ww_imm _ imm16 h.1 h.2]
    decide
  · simp [opcodeMap, encode]

theorem wmvpl (rd : RegField) : Statement (.wmvpl rd) := fun h => by
  simp only [Instr.wellFormed] at h
  refine ⟨opcodeMap[9], by simp [opcodeMap], rfl, ?_, ?_⟩
  · simp only [opcodeMap, OpcodeRow.hits, encode, List.getElem_cons_succ, List.getElem_cons_zero, hits_w _ h]
    decide
  · simp [opcodeMap, encode]

theorem wmvph (rd : RegField) : Statement (.wmvph rd) := fun h => by
  simp only [Instr.wellFormed] at h
  refine ⟨opcodeMap[10], by simp [opcodeMap], rfl, ?_, ?_⟩
  · simp only [opcodeMap, OpcodeRow.hits, encode, List.getElem_cons_succ, List.getElem_cons_zero, hits_w _ h]
    decide
  · simp [opcodeMap, encode]

theorem wld (r : RegField) (slot : SlotField) : Statement (.wld r slot) := fun h => by
  simp only [Instr.wellFormed] at h
  refine ⟨opcodeMap[11], by simp [opcodeMap], rfl, ?_, ?_⟩
  · simp only [opcodeMap, OpcodeRow.hits, encode, List.getElem_cons_succ, List.getElem_cons_zero, hits_w_slot _ slot h]
    decide
  · simp [opcodeMap, encode]

theorem wst (r : RegField) (slot : SlotField) : Statement (.wst r slot) := fun h => by
  simp only [Instr.wellFormed] at h
  refine ⟨opcodeMap[12], by simp [opcodeMap], rfl, ?_, ?_⟩
  · simp only [opcodeMap, OpcodeRow.hits, encode, List.getElem_cons_succ, List.getElem_cons_zero, hits_w_slot _ slot h]
    decide
  · simp [opcodeMap, encode]

theorem mld (r : RegField) (s : Bool) (slot : SlotField) : Statement (.mld r s slot) := fun h => by
  simp only [Instr.wellFormed] at h
  refine ⟨opcodeMap[13], by simp [opcodeMap], rfl, ?_, ?_⟩
  · simp only [opcodeMap, OpcodeRow.hits, encode, List.getElem_cons_succ, List.getElem_cons_zero, hits_m_sign_slot _ s slot h]
    decide
  · simp [opcodeMap, encode]

theorem mst (r : RegField) (slot : SlotField) : Statement (.mst r slot) := fun h => by
  simp only [Instr.wellFormed] at h
  refine ⟨opcodeMap[14], by simp [opcodeMap], rfl, ?_, ?_⟩
  · simp only [opcodeMap, OpcodeRow.hits, encode, List.getElem_cons_succ, List.getElem_cons_zero, hits_m_slot _ slot h]
    decide
  · simp [opcodeMap, encode]

theorem madd (rd rs1 rs2 : RegField) : Statement (.madd rd rs1 rs2) := fun h => by
  simp only [Instr.wellFormed, Bool.and_eq_true] at h
  refine ⟨opcodeMap[15], by simp [opcodeMap], rfl, ?_, ?_⟩
  · simp only [opcodeMap, OpcodeRow.hits, encode, List.getElem_cons_succ, List.getElem_cons_zero, hits_mmm _ h.1.1 h.1.2 h.2]
    decide
  · simp [opcodeMap, encode, fieldsR]

theorem msub (rd rs1 rs2 : RegField) : Statement (.msub rd rs1 rs2) := fun h => by
  simp only [Instr.wellFormed, Bool.and_eq_true] at h
  refine ⟨opcodeMap[16], by simp [opcodeMap], rfl, ?_, ?_⟩
  · simp only [opcodeMap, OpcodeRow.hits, encode, List.getElem_cons_succ, List.getElem_cons_zero, hits_mmm _ h.1.1 h.1.2 h.2]
    decide
  · simp [opcodeMap, encode, fieldsR]

theorem mcmp (rs1 rs2 : RegField) : Statement (.mcmp rs1 rs2) := fun h => by
  simp only [Instr.wellFormed, Bool.and_eq_true] at h
  refine ⟨opcodeMap[17], by simp [opcodeMap], rfl, ?_, ?_⟩
  · simp only [opcodeMap, OpcodeRow.hits, encode, List.getElem_cons_succ, List.getElem_cons_zero, hits_mm _ h.1 h.2]
    decide
  · simp [opcodeMap, encode]

theorem mcmpmag (rs1 rs2 : RegField) : Statement (.mcmpmag rs1 rs2) := fun h => by
  simp only [Instr.wellFormed, Bool.and_eq_true] at h
  refine ⟨opcodeMap[18], by simp [opcodeMap], rfl, ?_, ?_⟩
  · simp only [opcodeMap, OpcodeRow.hits, encode, List.getElem_cons_succ, List.getElem_cons_zero, hits_mm _ h.1 h.2]
    decide
  · simp [opcodeMap, encode]

theorem minfo (rs1 : RegField) : Statement (.minfo rs1) := fun h => by
  simp only [Instr.wellFormed] at h
  refine ⟨opcodeMap[19], by simp [opcodeMap], rfl, ?_, ?_⟩
  · simp only [opcodeMap, OpcodeRow.hits, encode, List.getElem_cons_succ, List.getElem_cons_zero, hits_m _ h]
    decide
  · simp [opcodeMap, encode]

end Sys2Proof.Laws.OpcodeRow
end

