-- ==== Sys2Proof/Tests/Slice0.lean ====
section
/-! SUPPORT. Tests of the model's own. The expected results are the spec's: the worked encodings of `30_encoding.md` R107 and
the vectors of `95_test_vectors.md` (V-DE, V-DI, V-WA and so on), whose names stand beside them. The witnesses at the end
meet the hypotheses of the statements. -/

namespace Sys2Proof.Tests

open Sys2Proof.Machine

/-! ## Well-formedness: one ill-formed term for each check (R92) -/

theorem test_wf_wreg_bounds : isWReg 7#4 = true ∧ isWReg 8#4 = false := by decide
theorem test_wf_mreg_bounds : isMReg 3#4 = true ∧ isMReg 4#4 = false := by decide
theorem test_wf_refuses_wadd :
    Instr.wellFormed (.wadd 8 0 0) = false ∧ Instr.wellFormed (.wadd 0 8 0) = false ∧
      Instr.wellFormed (.wadd 0 0 8) = false := by decide
theorem test_wf_refuses_wsub :
    Instr.wellFormed (.wsub 8 0 0) = false ∧ Instr.wellFormed (.wsub 0 8 0) = false ∧
      Instr.wellFormed (.wsub 0 0 8) = false := by decide
theorem test_wf_refuses_wmul :
    Instr.wellFormed (.wmul 8 0 0) = false ∧ Instr.wellFormed (.wmul 0 8 0) = false ∧
      Instr.wellFormed (.wmul 0 0 8) = false := by decide
theorem test_wf_refuses_wand :
    Instr.wellFormed (.wand 8 0 0) = false ∧ Instr.wellFormed (.wand 0 8 0) = false ∧
      Instr.wellFormed (.wand 0 0 8) = false := by decide
theorem test_wf_refuses_wor :
    Instr.wellFormed (.wor 8 0 0) = false ∧ Instr.wellFormed (.wor 0 8 0) = false ∧
      Instr.wellFormed (.wor 0 0 8) = false := by decide
theorem test_wf_refuses_wxor :
    Instr.wellFormed (.wxor 8 0 0) = false ∧ Instr.wellFormed (.wxor 0 8 0) = false ∧
      Instr.wellFormed (.wxor 0 0 8) = false := by decide
theorem test_wf_refuses_shifts :
    Instr.wellFormed (.wshl 8 0 1) = false ∧ Instr.wellFormed (.wshl 0 8 1) = false ∧
      Instr.wellFormed (.wshr 8 0 1) = false ∧ Instr.wellFormed (.wshr 0 8 1) = false := by decide
theorem test_wf_refuses_moves_loads_stores :
    Instr.wellFormed (.wmvpl 8) = false ∧ Instr.wellFormed (.wmvph 8) = false ∧ Instr.wellFormed (.wld 8 0) = false ∧
      Instr.wellFormed (.wst 8 0) = false ∧ Instr.wellFormed (.mld 4 false 0) = false ∧
      Instr.wellFormed (.mst 4 0) = false := by decide
theorem test_wf_refuses_madd_msub :
    Instr.wellFormed (.madd 4 0 0) = false ∧ Instr.wellFormed (.madd 0 4 0) = false ∧
      Instr.wellFormed (.madd 0 0 4) = false ∧ Instr.wellFormed (.msub 4 0 0) = false ∧
      Instr.wellFormed (.msub 0 4 0) = false ∧ Instr.wellFormed (.msub 0 0 4) = false := by decide
theorem test_wf_refuses_compares :
    Instr.wellFormed (.mcmp 4 0) = false ∧ Instr.wellFormed (.mcmp 0 4) = false ∧ Instr.wellFormed (.mcmpmag 4 0) = false ∧
      Instr.wellFormed (.mcmpmag 0 4) = false ∧ Instr.wellFormed (.minfo 4) = false := by decide

/-! ## Decoding: a word of every constructor, written out field by field from R91, R100 and R107 (V-DE1 to V-DE21) -/

/-- V-DE1: `op` 00, everything else 0. -/
theorem test_decode_nop : decode 0b00000000000000000000000000000000#32 = .ok .nop := by decide
/-- V-DE2: `op` 10, `rd` 2, `rs1` 0, `rs2` 1. -/
theorem test_decode_wadd : decode 0b00010000001000000001000000000000#32 = .ok (.wadd 2 0 1) := by decide
/-- V-DE3: `op` 11, fields 7, 7, 7. -/
theorem test_decode_wsub : decode 0b00010001011101110111000000000000#32 = .ok (.wsub 7 7 7) := by decide
/-- R107: `WMUL w2, w0, w1`. -/
theorem test_decode_wmul : decode 0b00010010001000000001000000000000#32 = .ok (.wmul 2 0 1) := by decide
/-- V-DE5: `WAND w1, w2, w3`. -/
theorem test_decode_wand : decode 0b00010011000100100011000000000000#32 = .ok (.wand 1 2 3) := by decide
/-- V-DE6: `WOR w4, w5, w6`. -/
theorem test_decode_wor : decode 0b00010100010001010110000000000000#32 = .ok (.wor 4 5 6) := by decide
/-- V-DE7: `WXOR w3, w3, w3`. -/
theorem test_decode_wxor : decode 0b00010101001100110011000000000000#32 = .ok (.wxor 3 3 3) := by decide
/-- V-DE8: `WSHL w1, w0, #255`. -/
theorem test_decode_wshl : decode 0b00010110000100000000000011111111#32 = .ok (.wshl 1 0 255) := by decide
/-- V-DE9: `WSHR w3, w3, #65535`. -/
theorem test_decode_wshr : decode 0b00010111001100111111111111111111#32 = .ok (.wshr 3 3 65535) := by decide
/-- V-DE10: `WMVPL w7`. -/
theorem test_decode_wmvpl : decode 0b00011000011100000000000000000000#32 = .ok (.wmvpl 7) := by decide
/-- V-DE11: `WMVPH w0`. -/
theorem test_decode_wmvph : decode 0b00011001000000000000000000000000#32 = .ok (.wmvph 0) := by decide
/-- V-DE12: `WLD w7, [15]`. -/
theorem test_decode_wld : decode 0b00100000011100000000000000001111#32 = .ok (.wld 7 15) := by decide
/-- R107: `WST w5, [15]`. -/
theorem test_decode_wst : decode 0b00100001010100000000000000001111#32 = .ok (.wst 5 15) := by decide
/-- V-DE14: `MLD m3, [9], -`: bit 16 set. -/
theorem test_decode_mld_minus : decode 0b00100010001100010000000000001001#32 = .ok (.mld 3 true 9) := by decide
/-- V-DE15: `MLD m0, [0], +`: bit 16 clear. -/
theorem test_decode_mld_plus : decode 0b00100010000000000000000000000000#32 = .ok (.mld 0 false 0) := by decide
/-- V-DE16: `MST m2, [7]`. -/
theorem test_decode_mst : decode 0b00100011001000000000000000000111#32 = .ok (.mst 2 7) := by decide
/-- R107: `MADD m2, m0, m1`. -/
theorem test_decode_madd : decode 0b00110000001000000001000000000000#32 = .ok (.madd 2 0 1) := by decide
/-- V-DE18: `MSUB m0, m1, m2`. -/
theorem test_decode_msub : decode 0b00110001000000010010000000000000#32 = .ok (.msub 0 1 2) := by decide
/-- V-DE19: `MCMP m3, m0`. -/
theorem test_decode_mcmp : decode 0b00110010000000110000000000000000#32 = .ok (.mcmp 3 0) := by decide
/-- R107: `MCMP m0, m1`, with the other opcode of R100. -/
theorem test_decode_mcmpmag : decode 0b00110011000000000001000000000000#32 = .ok (.mcmpmag 0 1) := by decide
/-- V-DE21: `MINFO m3`. -/
theorem test_decode_minfo : decode 0b00110100000000110000000000000000#32 = .ok (.minfo 3) := by decide

/-- V-DI1 to V-DI5: unassigned opcodes. -/
theorem test_decode_unassigned :
    decode 0x01000000#32 = .error .unassignedOpcode ∧ decode 0x1A000000#32 = .error .unassignedOpcode ∧
    decode 0x24000000#32 = .error .unassignedOpcode ∧ decode 0x35000000#32 = .error .unassignedOpcode ∧
    decode 0xFFFFFFFF#32 = .error .unassignedOpcode := by decide
/-- V-DI6 to V-DI8, V-DI11, V-DI17, V-DI18, V-DI21 to V-DI23: register indices out of range. -/
theorem test_decode_register_index :
    decode 0x10801000#32 = .error .registerIndex ∧ decode 0x10280000#32 = .error .registerIndex ∧
    decode 0x10208000#32 = .error .registerIndex ∧ decode 0x16800000#32 = .error .registerIndex ∧
    decode 0x21800000#32 = .error .registerIndex ∧ decode 0x22400000#32 = .error .registerIndex ∧
    decode 0x30401000#32 = .error .registerIndex ∧ decode 0x30040000#32 = .error .registerIndex ∧
    decode 0x31004000#32 = .error .registerIndex := by decide
/-- V-DI9, V-DI10, V-DI12 to V-DI16, V-DI19, V-DI20, V-DI24 to V-DI27: must-be-zero bits that are not zero. -/
theorem test_decode_must_be_zero :
    decode 0x10201001#32 = .error .mustBeZero ∧ decode 0x10201800#32 = .error .mustBeZero ∧
    decode 0x18010000#32 = .error .mustBeZero ∧ decode 0x19001000#32 = .error .mustBeZero ∧
    decode 0x20010003#32 = .error .mustBeZero ∧ decode 0x20000010#32 = .error .mustBeZero ∧
    decode 0x20020000#32 = .error .mustBeZero ∧ decode 0x22020000#32 = .error .mustBeZero ∧
    decode 0x23010000#32 = .error .mustBeZero ∧ decode 0x32101000#32 = .error .mustBeZero ∧
    decode 0x34001000#32 = .error .mustBeZero ∧ decode 0x00000001#32 = .error .mustBeZero ∧
    decode 0x00100000#32 = .error .mustBeZero := by decide

/-- V-DE14, V-DE9, V-DE12: the encoder gives the words the tables print. -/
theorem test_encode_words :
    encode (.mld 3 true 9) = 0x22310009#32 ∧ encode (.wshr 3 3 65535) = 0x1733FFFF#32 ∧
      encode (.wld 7 15) = 0x2070000F#32 ∧ encode (.mcmp 3 0) = 0x32030000#32 := by decide

/-- R105: the assembler's line. -/
theorem test_assembly_lines :
    assembly (.mld 3 true 9) = "MLD m3, [9], -" ∧ assembly (.wshr 3 3 65535) = "WSHR w3, w3, #65535" := by decide

/-! ## One step of each command -/

/-- The state one command write later. -/
def after (c : Nat) (s : State) : State :=
  match step (s.withFetchWord 32 c) with
  | .next t => t
  | .fault _ => s
  | .refused _ => s

/-- The reset state with two Word256 registers, their flags clear. -/
def words (a b : Value256) : State := (State.reset.setWord 0 a false).setWord 1 b false

/-- An MPInt register written out, `dp[0]` first. -/
def digits (sign : Bool) (used : Fin 11) (ds : List Digit) : MPInt :=
  { sign := sign, used := used, dp := Vector.ofFn fun k => ds.getD k.val 0 }

/-- The reset state with two MPInt registers. -/
def mps (a b : MPInt) : State := (State.reset.setMp 0 a).setMp 1 b

/-- `2^280 - 1`, ten full digits. -/
def fullMp (sign : Bool) : MPInt := digits sign 10 (List.replicate 10 0xFFFFFFF)

/-- V-WA1: the sum wraps to 0 and nothing is signalled. -/
theorem test_wadd_wraps : (after 0x10201000 (words (0 - 1) 1)).wordAt 2 = 0 ∧
    statusWord (after 0x10201000 (words (0 - 1) 1)) = 0 := by decide
/-- V-WA9: the destination is both sources. -/
theorem test_wadd_doubles :
    (after 0x10000000 (words 0x8000000000000000000000000000000000000000000000000000000000000007 0)).wordAt 0 = 0xE := by
  decide
/-- V-WS1: 0 - 1 wraps. -/
theorem test_wsub_wraps : (after 0x11201000 (words 0 1)).wordAt 2 =
    0xFFFFFFFFFFFFFFFFFFFFFFFFFFFFFFFFFFFFFFFFFFFFFFFFFFFFFFFFFFFFFFFF := by decide
/-- V-WS9: a write that is no multiply clears the flag. -/
theorem test_wsub_clears_flag :
    (after 0x11333000 (State.reset.setWord 3 0x3039 true)).w.get 3 = { value := 0, ovf := false } := by decide
/-- V-MU1: Scenario B (R188): the product fits, so the flag is 0. -/
theorem test_wmul_scenario_b :
    (after 0x12201000 (words 0xFFFFFFFFFFFFFFFFFFFFFFFFFFFFFFFF 0xFFFFFFFFFFFFFFFFFFFFFFFFFFFFFFFF)).w.get 2 =
      { value := 0xFFFFFFFFFFFFFFFFFFFFFFFFFFFFFFFE00000000000000000000000000000001, ovf := false } := by decide
/-- V-MU12: 3 * 0xC0... overflows: the low half wraps, the flag is 1, `P` holds all of it. -/
theorem test_wmul_overflows :
    (after 0x12201000 (words 0xC000000000000000000000000000000000000000000000000000000000000000 3)).w.get 2 =
      { value := 0x4000000000000000000000000000000000000000000000000000000000000000, ovf := true } ∧
    highHalf (after 0x12201000 (words 0xC000000000000000000000000000000000000000000000000000000000000000 3)).p = 2 := by
  decide
/-- V-MS3: the low half of `P` to `w5`. -/
theorem test_wmvpl : (after 0x18500000 { State.reset with p := 0x1#256 ++ 0x30002#256 }).wordAt 5 = 0x30002 := by decide
/-- V-MS2: the high half of `P` to `w3`. -/
theorem test_wmvph : (after 0x19300000 { State.reset with p := 0x1#256 ++ 0x30002#256 }).wordAt 3 = 0x1 := by decide
/-- V-SH5: a left shift by 65 crosses limbs. -/
theorem test_wshl_crosses_limbs :
    (after 0x16100041 (words 0x80000000000000010000000000000000FFFFFFFFFFFFFFFF8000000000000001 0)).wordAt 1 =
      0x0000000000000001FFFFFFFFFFFFFFFF00000000000000020000000000000000 := by decide
/-- V-SH9: an amount of 256 gives 0, it is not taken modulo 256. -/
theorem test_wshl_by_256 : (after 0x16100100 (words (0 - 1) 0)).wordAt 1 = 0 := by decide
/-- V-SH16: a right shift by 65 crosses limbs and fills with zeros. -/
theorem test_wshr_crosses_limbs :
    (after 0x17100041 (words 0x80000000000000010000000000000000FFFFFFFFFFFFFFFF8000000000000001 0)).wordAt 1 =
      0x0000000000000000400000000000000080000000000000007FFFFFFFFFFFFFFF := by decide
/-- V-SH22: the amount 65535 gives 0. -/
theorem test_wshr_by_65535 : (after 0x1710FFFF (words (0 - 1) 0)).wordAt 1 = 0 := by decide
/-- V-BW1. -/
theorem test_wand :
    (after 0x13201000 (words 0xFF00FF00FF00FF000F0F0F0F0F0F0F0FAAAAAAAAAAAAAAAAFFFFFFFF00000000
      0x0FF00FF00FF00FF0FFFFFFFF000000005555555555555555FFFF0000FFFF0000)).wordAt 2 =
      0x0F000F000F000F000F0F0F0F000000000000000000000000FFFF000000000000 := by decide
/-- V-BW2. -/
theorem test_wor :
    (after 0x14201000 (words 0xFF00FF00FF00FF000F0F0F0F0F0F0F0FAAAAAAAAAAAAAAAAFFFFFFFF00000000
      0x0FF00FF00FF00FF0FFFFFFFF000000005555555555555555FFFF0000FFFF0000)).wordAt 2 =
      0xFFF0FFF0FFF0FFF0FFFFFFFF0F0F0F0FFFFFFFFFFFFFFFFFFFFFFFFFFFFF0000 := by decide
/-- V-BW3. -/
theorem test_wxor :
    (after 0x15201000 (words 0xFF00FF00FF00FF000F0F0F0F0F0F0F0FAAAAAAAAAAAAAAAAFFFFFFFF00000000
      0x0FF00FF00FF00FF0FFFFFFFF000000005555555555555555FFFF0000FFFF0000)).wordAt 2 =
      0xF0F0F0F0F0F0F0F0F0F0F0F00F0F0F0FFFFFFFFFFFFFFFFF0000FFFFFFFF0000 := by decide
/-- V-BW4: `WZERO w5` clears the register and its flag. -/
theorem test_wzero : encode (wzero 5) = 0x15555000#32 ∧
    (after 0x15555000 (State.reset.setWord 5 (0 - 1) true)).w.get 5 = { value := 0, ovf := false } := by decide
/-- V-LS1: the first byte of the slot is the most significant. -/
theorem test_wld_big_endian :
    (after 0x20000003 { State.reset with sb := (List.range 32).map fun k => (96 + k, BitVec.ofNat 8 (k + 1)) }).wordAt 0 =
      0x0102030405060708090A0B0C0D0E0F101112131415161718191A1B1C1D1E1F20 := by decide
/-- V-LS6: an unwritten slot is all zero and the load clears the flag. -/
theorem test_wld_clears_flag :
    (after 0x20600009 (State.reset.setWord 6 0x63 true)).w.get 6 = { value := 0, ovf := false } := by decide
/-- V-LS3: 2^255 + 1 to slot 15: the first byte is 0x80, the last is 0x01. -/
theorem test_wst_big_endian :
    (after 0x2150000F
      (State.reset.setWord 5 0x8000000000000000000000000000000000000000000000000000000000000001 false)).sb =
      [(480, 0x80), (511, 0x01)] := by decide
/-- V-LS4: every byte of the slot is written. -/
theorem test_wst_writes_zeros :
    (after 0x21100000 { State.reset with sb := (List.range 32).map fun k => (k, 0xFF) }).sb = [] := by decide
/-- V-ML2: a zero with the sign `-` is canonical zero. -/
theorem test_mld_no_negative_zero : (after 0x22010000 State.reset).mpAt 0 = MPInt.zero := by decide
/-- V-ML8: -(2^32). -/
theorem test_mld_negative :
    (after 0x22010000 { State.reset with sb := [(27, 1)] }).mpAt 0 = digits true 2 [0, 0x10] := by decide
/-- V-ST2: -(2^32): the magnitude is stored and not the sign. -/
theorem test_mst_drops_sign :
    (after 0x23300000 (State.reset.setMp 3 (digits true 2 [0, 0x10]))).sb = [(27, 1)] := by decide
/-- V-ST5: 2^256 does not fit a slot. -/
theorem test_mst_narrow_overflow :
    (after 0x23200003 { State.reset.setMp 2 (digits false 10 [0, 0, 0, 0, 0, 0, 0, 0, 0, 0x10]) with sb := [(127, 0xAB)] }) =
      { State.reset.setMp 2 (digits false 10 [0, 0, 0, 0, 0, 0, 0, 0, 0, 0x10]) with
        sb := [(127, 0xAB)], fault := true, fcause := .narrowOverflow, fcmd := 0x23200003, finfo := 256 } := by decide
/-- V-MA1: Scenario A: a carry from digit 0 into digit 1. -/
theorem test_madd_scenario_a :
    (after 0x30201000 (mps (digits false 2 [0xFFFFFFF, 0xF]) (digits false 1 [1]))).mpAt 2 = digits false 2 [0, 0x10] := by
  decide
/-- V-MA24: (2^280 - 1) + 1 needs 11 digits. -/
theorem test_madd_capacity :
    (after 0x30201000 (mps (fullMp false) (digits false 1 [1]))) =
      { mps (fullMp false) (digits false 1 [1]) with
        fault := true, fcause := .mpCapacity, fcmd := 0x30201000, finfo := 280 } := by decide
/-- V-MA15: 1 - 2^32 is negative. -/
theorem test_msub_negative :
    (after 0x31201000 (mps (digits false 1 [1]) (digits false 2 [0, 0x10]))).mpAt 2 = digits true 2 [0xFFFFFFF, 0xF] := by
  decide
/-- V-MA16: -1 - -1 is canonical zero. -/
theorem test_msub_zero : (after 0x31201000 (mps (digits true 1 [1]) (digits true 1 [1]))).mpAt 2 = MPInt.zero := by decide
/-- V-MC8: -5 < -3. -/
theorem test_mcmp_both_negative : (after 0x32001000 (mps (digits true 1 [5]) (digits true 1 [3]))).cmp = .lt := by decide
/-- V-MC16: the most significant digit that differs decides. -/
theorem test_mcmp_top_digit : (after 0x32001000 (mps (digits false 3 [0, 1, 1]) (digits false 3 [1, 0, 1]))).cmp = .gt := by
  decide
/-- V-MC6: magnitudes only: |-5| > |3|. -/
theorem test_mcmpmag_ignores_signs : statusWord (after 0x33001000 (mps (digits true 1 [5]) (digits false 1 [3]))) = 4 := by
  decide
/-- V-MC10: |-7| = |7|. -/
theorem test_mcmpmag_equal : (after 0x33001000 (mps (digits true 1 [7]) (digits false 1 [7]))).cmp = .eq := by decide
/-- V-ML12: sign 1, ten digits. -/
theorem test_minfo : statusWord (after 0x34000000 (mps (fullMp true) MPInt.zero)) = 0x00000A08 := by decide
/-- R240. -/
theorem test_nop : after 0x00000000 (words 1 2) = words 1 2 := by decide

/-! ## Faults, dropped commands, host operations, reset (V-FA, P1, P4) -/

/-- V-FA2: an illegal word. -/
theorem test_illegal_word : after 0x10801000 State.reset =
    { State.reset with fault := true, fcause := .illegalCmd, fcmd := 0x10801000 } := by decide
/-- The state V-FA2 leaves. -/
def faulted : State := { State.reset with fault := true, fcause := .illegalCmd, fcmd := 0x10801000 }
/-- V-FA3, V-FA4: a faulted unit drops a legal word and an illegal one. -/
theorem test_faulted_drops : after 0x10100000 faulted = faulted ∧ after 0xFFFFFFFF faulted = faulted := by decide
/-- V-FA5: the host's slot access is not blocked by a fault. -/
theorem test_faulted_slot_write :
    step (nextAccess (.windowWrite 5 1 0x77) [] faulted) = .next { faulted with sb := [(5, 0x77)] } := rfl
/-- V-FA7: a write of 1 to CTRL is the reset. -/
theorem test_reset_clears_fault :
    step (nextAccess (.windowWrite 0x214 4 1) [] { faulted with sb := [(5, 0x77)] }) = .next State.reset := rfl
/-- P1, step 9: STATUS shows the flag of `w3` at bit 19. -/
theorem test_status_wovf :
    step (nextAccess (.windowRead 0x204 4) [] (State.reset.setWord 3 0 true)) =
      .next { State.reset.setWord 3 0 true with hostRead := some (.word 0x00080000) } := rfl
/-- P4, steps 29 to 31: the fault registers as the host reads them. -/
theorem test_fault_registers :
    csrWord (after 0x30201000 (mps (fullMp false) (digits false 1 [1]))) .fcause = 2 ∧
      csrWord (after 0x30201000 (mps (fullMp false) (digits false 1 [1]))) .finfo = 0x118 := by decide

/-! ## Witnesses: the hypotheses of each statement, met together, at the boundaries of their ranges -/

/-- A state with something in every file: two words, two MPInts, bytes at both ends of the buffer. -/
def busy : State :=
  { ((words 5 3).setMp 0 (digits true 2 [7, 1])).setMp 1 (digits false 1 [9]) with sb := [(0, 1), (511, 2)] }

theorem witness_DecodeOfEncodeGivesCommand : Instr.wellFormed (.mld 3 true 15) = true := by decide
theorem witness_EncodeOfDecodeGivesWord : decode 0x2231000F#32 = .ok (.mld 3 true 15) := by decide
theorem witness_DecodeFollowsOpcodeMap :
    (∃ row ∈ opcodeMap, row.hits 0x10777000#32 = true) ∧ (∀ row ∈ opcodeMap, row.hits 0x10807000#32 = false) := by decide
theorem witness_IllFormedCommandIsIllegal : Instr.wellFormed (.madd 0 0 4) = false := by decide
theorem witness_StepRunsDecodedCommand : busy.fault = false ∧ decode 0x10201000#32 = .ok (.wadd 2 0 1) := by decide
theorem witness_UnmatchedWordRaisesIllegalCmd :
    busy.fault = false ∧ ∀ row ∈ opcodeMap, row.hits 0x20000010#32 = false := by decide
theorem witness_HostAccessAllowedAtAllTimes : Memory.wf busy.sb = true ∧
    (∃ a : BitVec 9, a.toNat = 511 ∧ (0 : Nat) ≠ a.toNat) := ⟨rfl, 511#9, rfl, by decide⟩
theorem witness_WindowAddressMap :
    (511 : Nat) < 512 ∧ writeOperation 511 1 0x177 = some (.writeSB 511 0x77) ∧ readOperation 0 1 = some (.readSB 0) ∧
      writeOperation 0x214 4 3 = some .reset ∧ writeOperation 0x214 4 2 = none := by decide
theorem witness_StrayAccessesHaveNoEffect :
    writeOperation 512 1 1 = none ∧ writeOperation 508 4 1 = none ∧ writeOperation 0x200 1 1 = none ∧
      writeOperation 0x204 4 1 = none ∧ writeOperation 0x218 4 1 = none ∧ readOperation 512 1 = none ∧
      readOperation 0x200 4 = none ∧ readOperation 0x214 4 = none ∧ readOperation 0x210 2 = none := by decide
theorem witness_FaultRegisterContents :
    (busy.fault = false ∧ faultRecordOk busy = true) ∧ (faulted.fault = true ∧ faultRecordOk faulted = true) ∧
      faultRecordOk (after 0x30201000 (mps (fullMp false) (digits false 1 [1]))) = true ∧
      faultRecordOk (after 0x23000003 (mps (fullMp false) MPInt.zero)) = true := by decide
theorem witness_StepKeepsInvariant :
    (busy.withFetchWord 32 0x30201000).inv = true ∧ ∃ t, step (busy.withFetchWord 32 0x30201000) = .next t :=
  ⟨by decide, _, rfl⟩
theorem witness_FaultedUnitDropsCommands :
    faulted.fault = true ∧ nextOperation (nextAccess (.windowWrite 511 1 0x77) [] faulted) ≠ some .reset ∧
      ∃ t, step (nextAccess (.windowWrite 511 1 0x77) [] faulted) = .next t ∧ t.byteAt 511 ≠ faulted.byteAt 511 :=
  ⟨rfl, by decide, _, rfl, by decide⟩
theorem witness_OnlyResetClearsFault :
    faulted.fault = true ∧ (∃ t, step (nextAccess (.op .reset) [] faulted) = .next t ∧ t.fault = false) ∧
      ∃ t, step (nextCommand 0x10100000 [] faulted) = .next t ∧ t.fault = true := ⟨rfl, ⟨_, rfl, rfl⟩, _, rfl, rfl⟩
theorem witness_FaultsAreExactlyThoseListed :
    faultRaised (.madd 2 0 1) (mps (fullMp false) MPInt.zero) = none ∧
      faultRaised (.madd 2 0 1) (mps (fullMp false) (digits false 1 [1])) = some .mpCapacity ∧
      faultRaised (.msub 2 0 1) (mps (fullMp false) (digits true 1 [1])) = some .mpCapacity ∧
      faultRaised (.mst 0 0) (mps (digits false 10 [0, 0, 0, 0, 0, 0, 0, 0, 0, 0xF]) MPInt.zero) = none ∧
      faultRaised (.mst 0 0) (mps (digits false 10 [0, 0, 0, 0, 0, 0, 0, 0, 0, 0x10]) MPInt.zero) = some .narrowOverflow ∧
      Instr.wellFormed (.madd 2 0 1) = true ∧ Instr.wellFormed (.msub 2 0 1) = true ∧ Instr.wellFormed (.mst 0 0) = true := by
  decide
theorem witness_FaultsAreExactlyThoseListed_illegal :
    busy.fault = false ∧ ∀ row ∈ opcodeMap, row.hits 0x35000000#32 = false := by decide
theorem witness_ProductRegisterHoldsLastProduct :
    Instr.wellFormed (.wmul 2 0 1) = true ∧ (∃ t, exec (.wmul 2 0 1) busy = .next t) ∧ ∃ t, exec (.wadd 2 0 1) busy = .next t :=
  ⟨rfl, ⟨_, rfl⟩, _, rfl⟩
theorem witness_OverflowFlagWrites :
    Instr.wellFormed (.wadd 2 0 1) = true ∧ (∃ t, exec (.wadd 2 0 1) busy = .next t) ∧
      wordDestination (.wadd 2 0 1) = some 2 ∧ wordDestination (.wmul 7 0 1) = some 7 ∧
      wordDestination (.wst 2 0) = none := ⟨rfl, ⟨_, rfl⟩, rfl, rfl, rfl⟩
theorem witness_NoCommandReadsOverflowFlags :
    EqualButFlags (words 5 3) ((words 5 3).setWord 0 5 true) ∧ ∃ t, exec (.wmul 2 0 1) (words 5 3) = .next t :=
  ⟨⟨by decide, rfl, rfl, rfl, ⟨rfl, rfl, rfl⟩, ⟨rfl, rfl, rfl, rfl⟩, rfl, rfl⟩, _, rfl⟩
theorem witness_StatusFieldsAreSnapshots : ∃ t, exec (.madd 2 0 1) busy = .next t ∧ t.cmp = .eq := ⟨_, rfl, rfl⟩
theorem witness_CommandChangesOnlyItsDestination :
    (∃ t, exec (.wst 0 15) busy = .next t) ∧ slotDestination (.wst 0 15) = some 15 ∧ slotAddress 15 = 480 ∧
      ¬ (slotAddress 15 ≤ 479 ∧ 479 < slotAddress 15 + 32) ∧ ¬ (slotAddress 15 ≤ 512 ∧ 512 < slotAddress 15 + 32) :=
  ⟨⟨_, rfl⟩, by decide, by decide, by decide, by decide⟩
theorem witness_NopChangesNothing : decode 0#32 = .ok .nop := by decide
theorem witness_WshlShiftsLeft_WshrShiftsRight :
    (256#16 : ShiftAmount).toNat ≥ 256 ∧ (65535#16 : ShiftAmount).toNat ≥ 256 ∧ ¬ (255#16 : ShiftAmount).toNat ≥ 256 := by
  decide
theorem witness_WstStoresBigEndianSlot : Memory.wf busy.sb = true ∧ (31 : Nat) < 32 := by decide
theorem witness_MstStoresMagnitudeOrFaults :
    Memory.wf busy.sb = true ∧ mag ({ fullMp false with dp := (fullMp false).dp.set 9 0xF }) = 2 ^ 256 - 1 ∧
      normalized ({ fullMp false with dp := (fullMp false).dp.set 9 0xF }) = true ∧
      mag (digits false 10 [0, 0, 0, 0, 0, 0, 0, 0, 0, 0x10]) = 2 ^ 256 := by decide
theorem witness_MaddWritesExactSumOrFaults :
    (val (fullMp false) + val MPInt.zero).natAbs < 2 ^ 280 ∧ (val (fullMp false) + val (digits false 1 [1])).natAbs = 2 ^ 280 ∧
      (val (fullMp true) + val (digits true 1 [1])).natAbs = 2 ^ 280 := by decide
theorem witness_MsubWritesExactDifferenceOrFaults :
    (val (fullMp false) - val MPInt.zero).natAbs < 2 ^ 280 ∧ (val (fullMp false) - val (digits true 1 [1])).natAbs = 2 ^ 280 ∧
      (val (fullMp true) - val (digits false 1 [1])).natAbs = 2 ^ 280 := by decide
theorem witness_McmpWritesSignedOrder : normalized (busy.mpAt 0) = true ∧ normalized (busy.mpAt 1) = true := by decide
theorem witness_McmpmagWritesMagnitudeOrder : normalized (fullMp true) = true ∧ normalized MPInt.zero = true := by decide
theorem witness_LimbShiftsAreShifts : (255 : Nat) < 256 ∧ shlByLimbs 3 255 = wordShl 3 255 := by decide
theorem witness_CarryIdentitiesAgree : (1 : Nat) ≤ 1 ∧ carryIdentity (0 - 1) 0 (BitVec.ofNat 64 (2 ^ 64)) = true := by decide
theorem witness_DigitLevelAddSubAgree :
    normalized (fullMp false) = true ∧ normalized (fullMp true) = true ∧ (val (fullMp false) + val (fullMp true)).natAbs = 0 ∧
      (val (fullMp false) - val (fullMp true)).natAbs ≥ 2 ^ 280 := by decide
theorem witness_NormalizeProperties :
    mag (digits true 10 []) = 0 ∧ normalized (digits true 10 []) = false ∧ normalized (mpNormalize (digits true 10 [])) = true := by
  decide
theorem witness_FromIntIsTheNormalizedRegister :
    (-(2 ^ 280 - 1) : Int).natAbs < 2 ^ 280 ∧ (0 : Int).natAbs < 2 ^ (28 * 0) := by decide
theorem witness_ComparisonsOrderTheIntegers : normalized (fullMp true) = true ∧ normalized (digits true 2 [0, 1]) = true := by
  decide
theorem witness_WordAddSubLaws : (2 : Fin 8) ≠ 0 ∧ (2 : Fin 8) ≠ 1 ∧ busy.wordAt 7 = 0 := by decide
theorem witness_ShiftRoundTrips : (0#16 : ShiftAmount).toNat < 256 ∧ (255#16 : ShiftAmount).toNat < 256 := by decide
theorem witness_WordSlotRoundTrips : Memory.wf busy.sb = true := by decide
theorem witness_MpintSlotRoundTrips :
    Memory.wf busy.sb = true ∧ normalized (busy.mpAt 0) = true ∧ mag (busy.mpAt 0) < 2 ^ 256 := by decide
theorem witness_MpintAddSubLaws : busy.inv = true ∧ busy.fault = false ∧ (2 : Fin 4) ≠ 0 ∧ (2 : Fin 4) ≠ 1 ∧
    (2 : Fin 4) ≠ 3 ∧ val (busy.mpAt 3) = 0 ∧
    (∃ t, exec (.madd 2 0 1) busy = .next t ∧ t.fault = false) ∧
    (∃ t, thenDo (exec (.madd 2 0 1) busy) (exec (.madd 2 2 3)) = .next t ∧ t.fault = false) ∧
    (∃ u, thenDo (exec (.madd 2 1 3) busy) (exec (.madd 2 0 2)) = .next u ∧ u.fault = false) ∧
    (∃ t, thenDo (exec (.madd 2 0 1) busy) (exec (.msub 2 2 1)) = .next t ∧ t.fault = false) ∧
    (∃ t, exec (.msub 2 0 1) busy = .next t ∧ t.fault = false) ∧
    (∃ u, thenDo (exec (.msub 2 3 1) busy) (exec (.madd 2 0 2)) = .next u ∧ u.fault = false) :=
  ⟨by decide, rfl, by decide, by decide, by decide, by decide, ⟨_, rfl, rfl⟩, ⟨_, rfl, rfl⟩, ⟨_, rfl, rfl⟩, ⟨_, rfl, rfl⟩,
    ⟨_, rfl, rfl⟩, _, rfl, rfl⟩
theorem witness_ResetValues : (∃ s : State, State.reset = s.softReset) ∧ ∃ s : State, s ≠ State.reset ∧
    ({ State.reset with pending := busy.pending } : State) = s.softReset := ⟨⟨State.reset, rfl⟩, busy, by decide, rfl⟩
theorem witness_SoftResetLeavesResetState :
    (1 : Nat) % 2 = 1 ∧ (4294967295 : Nat) % 2 = 1 ∧ faulted.fault = true ∧
      ∃ t, step (nextAccess (.windowWrite 0x214 4 1) [] faulted) = .next t ∧ t.fault = false := ⟨rfl, rfl, rfl, _, rfl, rfl⟩

end Sys2Proof.Tests
end

/-! PROOFS. The scope of the machine (`00_scope.md` R7): every operation answers a next state, and a step runs the command
that the written word decodes to. -/

namespace Sys2Proof.Machine

/-! ## Every layer of a step answers a next state -/

/-- No command stops the machine: each shape of `exec_cases` is a next state, a fault entry among them (R264). -/
theorem exec_answers (i : Instr) (s : State) : ∃ t, exec i s = .next t := by
  rcases exec_cases i s with ⟨_, _, -, word⟩ | ⟨_, _, _, _, _, _, -, product⟩ | ⟨_, _, -, -, -, mp⟩ |
    ⟨_, _, -, -, slot⟩ | ⟨-, same⟩ | ⟨_, -, cmp⟩ | ⟨_, -, info⟩ | ⟨_, -, fault⟩
  · exact ⟨_, word⟩
  · exact ⟨_, product⟩
  · exact ⟨_, mp⟩
  · exact ⟨_, slot⟩
  · exact ⟨_, same⟩
  · exact ⟨_, cmp⟩
  · exact ⟨_, info⟩
  · exact ⟨_, fault⟩

theorem runCommand_answers (c : Word) (s : State) : ∃ t, runCommand c s = .next t := by
  rcases runCommand_cases c s with ⟨-, dropped⟩ | ⟨-, -, illegal⟩ | ⟨-, i, -, executed⟩
  · exact ⟨_, dropped⟩
  · exact ⟨_, illegal⟩
  · rw [executed]
    exact exec_answers i s

theorem perform_answers (o : HostOp) (s : State) : ∃ t, perform o s = .next t := by
  cases o with
  | cmd c => exact runCommand_answers c s
  | writeSB a b => exact ⟨_, rfl⟩
  | readSB a => exact ⟨_, rfl⟩
  | readCSR r => exact ⟨_, rfl⟩
  | reset => exact ⟨_, rfl⟩

theorem performAccess_answers (x : HostAccess) (s : State) : ∃ t, performAccess x s = .next t := by
  rcases performAccess_cases x s with ⟨o, operation⟩ | strayWrite | ⟨_, strayRead⟩
  · rw [operation]
    exact perform_answers o s
  · exact ⟨_, strayWrite⟩
  · exact ⟨_, strayRead⟩

theorem step_answers (s : State) : ∃ t, step s = .next t := by
  cases hp : s.pending with
  | nil => exact ⟨s, step_idle hp⟩
  | cons x rest =>
    rw [step_perform hp]
    exact performAccess_answers x (performing rest s)

/-- Settles O9: layer by layer, from the command to the step. -/
theorem stepAlwaysAnswers : Obligations.StepAlwaysAnswers :=
  ⟨step_answers, exec_answers⟩

/-! ## A command write runs the decoded command -/

/-- While the unit is not faulted, a word that decodes is executed (R33, R102). -/
theorem runCommand_of_decode {s : State} {c : Word} {i : Instr} (hf : s.fault = false) (hd : decode c = .ok i) :
    runCommand c s = exec i s := by
  simp [runCommand, hf, hd]

/-- The step that performs the command write of a word that decodes is that command's execution (R7). -/
theorem step_nextCommand_of_decode {s : State} {c : Word} {i : Instr} (rest : List HostAccess) (hf : s.fault = false)
    (hd : decode c = .ok i) : step (nextCommand c rest s) = exec i (performing rest s) :=
  step_command.trans (runCommand_of_decode hf hd)

/-- Placing the 32 bits of a word puts its command write in front of the host's list (`notes/assumptions/3.md`). -/
theorem withFetchWord_toNat (s : State) (c : Word) : s.withFetchWord 32 c.toNat = nextCommand c s.pending s := by
  have hc : BitVec.ofNat 32 (c.toNat % 2 ^ 32) = c := by
    rw [Nat.mod_eq_of_lt c.isLt, BitVec.ofNat_toNat, BitVec.setWidth_eq]
  simp only [State.withFetchWord, nextCommand, hc]

/-- Settles O7: both ways of placing the word make it the host's next command write (log entry 1). -/
theorem stepRunsDecodedCommand : Obligations.StepRunsDecodedCommand := by
  intro s rest c i hf hd
  refine ⟨step_nextCommand_of_decode rest hf hd, ?_⟩
  rw [withFetchWord_toNat]
  exact step_nextCommand_of_decode s.pending hf hd

end Sys2Proof.Machine

/-! PROOFS. The register of an integer (`41_mpint_addsub.md` R140) and the comparisons of normalized registers
(`40_mpint_compare.md` R122, R123), both by way of the digit sum. -/

namespace Sys2Proof.Machine

/-! ## The digits of an integer -/

/-- A vector that holds the low base 2^28 digits of `n` sums to the part of `n` they make up. -/
theorem digitSum_of_digits {dp : Vector Digit 10} {n : Nat} :
    ∀ {u : Nat}, (∀ k < u, digitAt dp k = n / 2 ^ (28 * k) % 2 ^ 28) → digitSum dp u = n % 2 ^ (28 * u)
  | 0, _ => by simp [digitSum, Nat.mod_one]
  | u + 1, h => by
    have e : 2 ^ (28 * (u + 1)) = 2 ^ (28 * u) * 2 ^ 28 := by rw [Nat.mul_succ, Nat.pow_add]
    rw [digitSum, digitSum_of_digits fun k hk => h k (by omega), h u (by omega), e, Nat.mod_mul, Nat.mul_comm (2 ^ (28 * u))]

/-- The length that `mp_from_int` looks for: below the capacity it is found, and it is the least (R140). -/
theorem leastLength_spec {n : Nat} (hn : n < 2 ^ 280) :
    leastLength n ≤ 10 ∧ n < 2 ^ (28 * leastLength n) ∧ ∀ u, n < 2 ^ (28 * u) → leastLength n ≤ u := by
  have found : ∃ u, (List.range (Config.mpCap + 1)).find? (fun u => decide (n < 2 ^ (Config.digitBits * u))) = some u := by
    rw [← Option.isSome_iff_exists, List.find?_isSome]
    exact ⟨10, List.mem_range.2 (by decide), decide_eq_true hn⟩
  obtain ⟨u, hu⟩ := found
  have length_eq : leastLength n = u := by rw [leastLength, hu, Option.getD_some]
  obtain ⟨fits, inRange, least⟩ := List.find?_range_eq_some.1 hu
  rw [length_eq]
  refine ⟨by simpa [Nat.lt_succ_iff] using inRange, by simpa using fits, fun v hv => ?_⟩
  by_contra shorter
  simpa [hv] using least v (by omega)

/-- Digit `k` of `mp_from_int(v)` is digit `k` of `|v|` (R140). -/
theorem digitAt_mpFromInt (v : Int) {k : Nat} (hk : k < 10) :
    digitAt (mpFromInt v).dp k = v.natAbs / 2 ^ (28 * k) % 2 ^ 28 := by
  simp only [mpFromInt, digitAt_digitsOf _ hk, Config.digitBits]

section FromInt
variable {v : Int} (hv : v.natAbs < 2 ^ 280)
include hv

theorem mpFromInt_used : (mpFromInt v).used.val = leastLength v.natAbs := by
  have := (leastLength_spec hv).1
  exact Nat.mod_eq_of_lt (by omega)

theorem natAbs_lt_mpFromInt : v.natAbs < 2 ^ (28 * (mpFromInt v).used.val) := by
  rw [mpFromInt_used hv]
  exact (leastLength_spec hv).2.1

theorem mpFromInt_used_le {u : Nat} (hu : v.natAbs < 2 ^ (28 * u)) : (mpFromInt v).used.val ≤ u := by
  rw [mpFromInt_used hv]
  exact (leastLength_spec hv).2.2 u hu

theorem mag_mpFromInt : mag (mpFromInt v) = v.natAbs := by
  have := (mpFromInt v).used.isLt
  rw [mag, digitSum_of_digits fun k hk => digitAt_mpFromInt v (by omega)]
  exact Nat.mod_eq_of_lt (natAbs_lt_mpFromInt hv)

theorem val_mpFromInt : val (mpFromInt v) = v := by
  rw [val, mag_mpFromInt hv]
  simp only [mpFromInt, decide_eq_true_eq]
  split <;> omega

/-- `mp_from_int` keeps R27: the length is the least, so its top digit is not 0 and every digit above it is. -/
theorem normalized_mpFromInt : normalized (mpFromInt v) = true := by
  have fits := natAbs_lt_mpFromInt hv
  have used_lt := (mpFromInt v).used.isLt
  rw [normalized_iff]
  refine ⟨or_iff_not_imp_left.2 fun nonempty => ?_, fun empty => ?_, fun k hk => ?_⟩
  · have pos : 0 < (mpFromInt v).used.val := Nat.pos_of_ne_zero fun e => nonempty (Fin.ext e)
    have top : 2 ^ (28 * ((mpFromInt v).used.val - 1)) ≤ v.natAbs := by
      by_contra below
      have := mpFromInt_used_le hv (Nat.lt_of_not_le below)
      omega
    have e : 28 * (mpFromInt v).used.val = 28 * ((mpFromInt v).used.val - 1) + 28 := by omega
    rw [e, Nat.pow_add] at fits
    rw [digitAt_mpFromInt v (by omega), Nat.mod_eq_of_lt (Nat.div_lt_of_lt_mul fits)]
    exact (Nat.div_pos top (Nat.two_pow_pos _)).ne'
  · have : v.natAbs < 1 := by simpa [empty] using fits
    simp only [mpFromInt, decide_eq_false_iff_not]
    omega
  · by_cases hk10 : k < 10
    · have : v.natAbs < 2 ^ (28 * k) := lt_of_lt_of_le fits (Nat.pow_le_pow_right (by decide) (by omega))
      rw [digitAt_mpFromInt v hk10, Nat.div_eq_of_lt this, Nat.zero_mod]
    · exact digitAt_above _ (by omega)

end FromInt

/-! ## Normalization of a normalized register -/

/-- The loop of R120 stops at the length whose top digit is not 0, from any tentative count above it. -/
theorem trimmedLength_eq {dp : Vector Digit 10} {u : Nat} (top : u = 0 ∨ digitAt dp (u - 1) ≠ 0)
    (above : ∀ k, u ≤ k → digitAt dp k = 0) : ∀ {n : Nat}, u ≤ n → trimmedLength dp n = u
  | 0, h => (Nat.le_zero.1 h).symm
  | n + 1, h => by
    rw [trimmedLength]
    split
    · next trimmed =>
      refine trimmedLength_eq top above (Nat.le_of_lt_succ (lt_of_le_of_ne h ?_))
      rintro rfl
      simp [trimmed] at top
    · next kept =>
      by_contra longer
      exact kept (above n (by omega))

/-- A normalized register comes back from `mp_normalize` with any tentative length that covers its own (R121). -/
theorem mpNormalize_covering {m : MPInt} (h : normalized m = true) {n : Fin 11} (hn : m.used ≤ n) :
    mpNormalize { m with used := n } = m := by
  obtain ⟨top, zeroSign, above⟩ := (normalized_iff m).1 h
  have top' : m.used.val = 0 ∨ digitAt m.dp (m.used.val - 1) ≠ 0 := top.imp_left (congrArg Fin.val)
  have length_eq : trimmedLength m.dp n.val = m.used.val := trimmedLength_eq top' above hn
  have used_lt := m.used.isLt
  have sign_eq : (if m.used.val = 0 then false else m.sign) = m.sign := by
    split
    · next empty => exact (zeroSign (Fin.ext empty)).symm
    · rfl
  have dp_eq : digitsOf (fun k => if k < m.used.val then digitAt m.dp k else 0) = m.dp := by
    refine digits_ext fun k hk => ?_
    rw [digitAt_digitsOf _ hk]
    split
    · exact Nat.mod_eq_of_lt (digitAt_lt _ _)
    · next outside => rw [above k (by omega), Nat.zero_mod]
  simp only [mpNormalize, length_eq, sign_eq, dp_eq]
  congr 1
  exact Fin.ext (Nat.mod_eq_of_lt used_lt)

/-- Settles O51. -/
theorem fromIntIsTheNormalizedRegister : Obligations.FromIntIsTheNormalizedRegister := by
  refine ⟨fun v hv => ⟨val_mpFromInt hv, normalized_mpFromInt hv, rfl, ?_, natAbs_lt_mpFromInt hv,
    fun _ => mpFromInt_used_le hv, fun _ => digitAt_mpFromInt v⟩, by decide⟩
  exact (mpNormalize_covering (normalized_mpFromInt hv) (Fin.le_last _)).symm

/-! ## Comparison (R122, R123) -/

/-- The order that the statements write out by cases. -/
theorem ite_order_eq_cmp {α : Type} [LinearOrder α] (x y : α) :
    (if x = y then Ordering.eq else if x < y then .lt else .gt) = cmp x y := by
  rcases lt_trichotomy x y with h | h | h
  · rw [if_neg h.ne, if_pos h, (cmp_eq_lt_iff _ _).2 h]
  · rw [if_pos h, (cmp_eq_eq_iff _ _).2 h]
  · rw [if_neg h.ne', if_neg h.asymm, (cmp_eq_gt_iff _ _).2 h]

/-- A greater digit at position `n` outweighs every difference below it. -/
theorem digitSum_succ_lt {a b : Vector Digit 10} {n : Nat} (h : digitAt a n < digitAt b n) :
    digitSum a (n + 1) < digitSum b (n + 1) := by
  have below := digitSum_lt a n
  have step : (digitAt a n + 1) * 2 ^ (28 * n) ≤ digitAt b n * 2 ^ (28 * n) := Nat.mul_le_mul_right _ h
  rw [Nat.add_mul, Nat.one_mul] at step
  simp only [digitSum, Config.digitBits]
  omega

/-- The loop of R122 orders the integers that the digits below `n` make. -/
theorem compareDigits_eq_cmp (a b : Vector Digit 10) : ∀ n, compareDigits a b n = cmp (digitSum a n) (digitSum b n)
  | 0 => rfl
  | n + 1 => by
    rw [compareDigits, compareDigits_eq_cmp a b n]
    rcases lt_trichotomy (digitAt a n) (digitAt b n) with less | same | greater
    · rw [if_neg less.asymm, if_pos less, (cmp_eq_lt_iff _ _).2 (digitSum_succ_lt less)]
    · rw [if_neg same.le.not_gt, if_neg same.ge.not_gt, digitSum, digitSum, same]
      exact (StrictMono.cmp_map_eq (f := (· + digitAt b n * 2 ^ (28 * n))) (fun _ _ h => Nat.add_lt_add_right h _) _ _).symm
    · rw [if_pos greater, (cmp_eq_gt_iff _ _).2 (digitSum_succ_lt greater)]

/-- The top digit of a normalized register bounds its magnitude from below. -/
theorem two_pow_le_mag {m : MPInt} (h : normalized m = true) (pos : 0 < m.used.val) :
    2 ^ (28 * (m.used.val - 1)) ≤ mag m := by
  obtain ⟨top, -, -⟩ := (normalized_iff m).1 h
  have digit : digitAt m.dp (m.used.val - 1) ≠ 0 := top.resolve_left fun e => by simp [e] at pos
  obtain ⟨u, hu⟩ : ∃ u, m.used.val = u + 1 := ⟨m.used.val - 1, by omega⟩
  rw [hu, Nat.add_sub_cancel] at digit ⊢
  rw [mag, hu, digitSum]
  exact le_add_left (Nat.le_mul_of_pos_left _ (Nat.pos_of_ne_zero digit))

/-- Of two normalized registers the longer has the greater magnitude. -/
theorem mag_lt_of_used_lt {a b : MPInt} (hb : normalized b = true) (h : a.used < b.used) : mag a < mag b := by
  have h' : a.used.val < b.used.val := h
  calc
    mag a < 2 ^ (28 * a.used.val) := digitSum_lt a.dp a.used.val
    _ ≤ 2 ^ (28 * (b.used.val - 1)) := Nat.pow_le_pow_right (by decide) (by omega)
    _ ≤ mag b := two_pow_le_mag hb (by omega)

theorem mpCmpMag_eq_cmp {a b : MPInt} (ha : normalized a = true) (hb : normalized b = true) :
    mpCmpMag a b = cmp (mag a) (mag b) := by
  rw [mpCmpMag]
  rcases lt_trichotomy a.used b.used with shorter | same | longer
  · rw [if_neg shorter.asymm, if_pos shorter, (cmp_eq_lt_iff _ _).2 (mag_lt_of_used_lt hb shorter)]
  · rw [if_neg same.le.not_gt, if_neg same.ge.not_gt, compareDigits_eq_cmp, mag, mag, same]
  · rw [if_pos longer, (cmp_eq_gt_iff _ _).2 (mag_lt_of_used_lt ha longer)]

theorem val_of_nonneg {m : MPInt} (h : m.sign = false) : val m = mag m := by simp [val, h]

theorem val_of_negative {m : MPInt} (h : m.sign = true) : val m = -(mag m : Int) := by simp [val, h]

/-- A normalized register with a negative sign is not zero (R27). -/
theorem val_lt_zero {m : MPInt} (hm : normalized m = true) (h : m.sign = true) : val m < 0 := by
  obtain ⟨-, zeroSign, -⟩ := (normalized_iff m).1 hm
  have pos : 0 < m.used.val := Nat.pos_of_ne_zero fun e => by simp [zeroSign (Fin.ext e)] at h
  have := (Nat.two_pow_pos _).trans_le (two_pow_le_mag hm pos)
  rw [val_of_negative h]
  omega

/-- Negation turns the order around: of two negative values the one of greater magnitude is less (R123). -/
theorem strictAnti_int_neg : StrictAnti (Neg.neg : Int → Int) := fun _ _ => neg_lt_neg

theorem mpCmp_eq_cmp {a b : MPInt} (ha : normalized a = true) (hb : normalized b = true) :
    mpCmp a b = cmp (val a) (val b) := by
  cases hsa : a.sign <;> cases hsb : b.sign <;> simp only [mpCmp, hsa, hsb]
  case false.false =>
    rw [val_of_nonneg hsa, val_of_nonneg hsb, Nat.strictMono_cast.cmp_map_eq]
    exact mpCmpMag_eq_cmp ha hb
  case false.true =>
    have := val_lt_zero hb hsb
    exact ((cmp_eq_gt_iff _ _).2 (by rw [val_of_nonneg hsa]; omega)).symm
  case true.false =>
    have := val_lt_zero ha hsa
    exact ((cmp_eq_lt_iff _ _).2 (by rw [val_of_nonneg hsb]; omega)).symm
  case true.true =>
    rw [val_of_negative hsa, val_of_negative hsb, strictAnti_int_neg.cmp_map_eq, Nat.strictMono_cast.cmp_map_eq]
    exact mpCmpMag_eq_cmp hb ha

/-- Settles O52. -/
theorem comparisonsOrderTheIntegers : Obligations.ComparisonsOrderTheIntegers := by
  refine ⟨fun a b ha hb => ?_, rfl, rfl⟩
  rw [ite_order_eq_cmp, ite_order_eq_cmp]
  exact ⟨mpCmpMag_eq_cmp ha hb, mpCmp_eq_cmp ha hb⟩

end Sys2Proof.Machine

/-! PROOFS. What one command does to the state (`10_state.md` R22 to R27, R35, R39): its effect as a case split, and the
statements that follow from it by cases. -/

namespace Sys2Proof.Machine

/-! ## The effect of one command -/

/-- What a command can do to the state: the cases of `exec_cases`, each with the state it leads to. -/
inductive CommandEffect (i : Instr) (s : State) : State → Prop
  /-- Write the Word256 destination with a clear flag (R22). -/
  | word (d : Fin 8) (v : Value256) (dest : wordDestination i = some d) : CommandEffect i s (s.setWord d v false)
  /-- `WMUL`: write `P`, the destination and its flag (R180). -/
  | product (rd a b : RegField) (v : Value256) (o : Bool) (p : Value512) (wmul : i = .wmul rd a b) :
    CommandEffect i s ({ s with p := p }.setWord (wIndex rd) v o)
  /-- Write an integer that fits to the MPInt destination (R141, R142, R224). -/
  | mp (d : Fin 4) (x : Int) (dest : mpDestination i = some d) (fits : x.natAbs < 2 ^ 280) :
    CommandEffect i s (s.setMp d (mpFromInt x))
  /-- Write the slot (R221, R226). -/
  | slot (k : SlotField) (v : Nat) (dest : slotDestination i = some k) : CommandEffect i s (s.setSlot k v)
  /-- `NOP` (R240). -/
  | nop (nop : i = .nop) : CommandEffect i s s
  /-- `MCMP` and `MCMPMAG` (R124, R125). -/
  | cmp (r : Ordering) (compare : ∃ a b, i = .mcmp a b ∨ i = .mcmpmag a b) : CommandEffect i s (setCmp r s)
  /-- `MINFO` (R126). -/
  | info (m : MPInt) (minfo : ∃ a, i = .minfo a) : CommandEffect i s { s with msign := m.sign, mused := usedField m.used }
  /-- Take a fault (R264): ILLEGAL_CMD, or the fault of a legal command. -/
  | fault (f : FaultCause)
    (cause : i.wellFormed = false ∧ f = .illegalCmd ∨ i.wellFormed = true ∧ faultRaised i s = some f) :
    CommandEffect i s (s.takeFault f (encode i))

theorem exec_effect {i : Instr} {s t : State} (h : exec i s = .next t) : CommandEffect i s t := by
  rcases exec_cases i s with ⟨d, v, dest, e⟩ | ⟨rd, a, b, v, o, p, wmul, e⟩ | ⟨d, x, dest, fits, -, e⟩ |
    ⟨k, v, dest, -, e⟩ | ⟨nop, e⟩ | ⟨r, compare, e⟩ | ⟨m, minfo, e⟩ | ⟨f, cause, e⟩ <;>
    obtain rfl := Host.Outcome.next.inj (h.symm.trans e)
  · exact .word d v dest
  · exact .product rd a b v o p wmul
  · exact .mp d x dest fits
  · exact .slot k v dest
  · exact .nop nop
  · exact .cmp r compare
  · exact .info m minfo
  · exact .fault f cause

/-- A legal `WMUL`, with the values it writes (R180). -/
theorem exec_wmul {rd a b : RegField} (hw : Instr.wellFormed (.wmul rd a b) = true) (s : State) :
    exec (.wmul rd a b) s =
      .next ({ s with p := wordMul (s.wordAt (wIndex a)) (s.wordAt (wIndex b)) }.setWord (wIndex rd)
        (lowHalf (wordMul (s.wordAt (wIndex a)) (s.wordAt (wIndex b))))
        (mulOverflow (wordMul (s.wordAt (wIndex a)) (s.wordAt (wIndex b))))) :=
  whenLegal_legal hw s _

theorem wordMul_toNat (a b : Value256) : (wordMul a b).toNat = a.toNat * b.toNat := rfl

/-- The overflow verdict of `WMUL`: the product does not fit 256 bits (R22). -/
theorem mulOverflow_wordMul (a b : Value256) : mulOverflow (wordMul a b) = decide (2 ^ 256 ≤ a.toNat * b.toNat) := by
  rw [mulOverflow, wordMul_toNat, decide_eq_decide, Ne, Nat.div_eq_zero_iff_lt (Nat.two_pow_pos 256), Nat.not_lt]

/-! ## The product register -/

/-- A command that is no `WMUL` leaves `P` (R25). -/
theorem exec_product {i : Instr} {s t : State} (h : exec i s = .next t) (other : ∀ rd a b, i ≠ .wmul rd a b) :
    t.p = s.p := by
  cases exec_effect h with
  | product rd a b v o p wmul => exact absurd wmul (other rd a b)
  | slot k v => exact setSlot_p s k v
  | _ => rfl

/-- Settles O22. -/
theorem productRegisterHoldsLastProduct : Obligations.ProductRegisterHoldsLastProduct := by
  refine fun i s t h => ⟨?_, exec_product h⟩
  rintro rd a b rfl hw
  rw [exec_wmul hw] at h
  obtain rfl := Host.Outcome.next.inj h
  exact wordMul_toNat _ _

/-! ## The status fields -/

/-- A command that is no comparison leaves STATUS.CMP (R35). -/
theorem exec_cmp {i : Instr} {s t : State} (h : exec i s = .next t) (noMcmp : ∀ a b, i ≠ .mcmp a b)
    (noMcmpmag : ∀ a b, i ≠ .mcmpmag a b) : t.cmp = s.cmp := by
  cases exec_effect h with
  | cmp r compare =>
    obtain ⟨a, b, mcmp | mcmpmag⟩ := compare
    · exact absurd mcmp (noMcmp a b)
    · exact absurd mcmpmag (noMcmpmag a b)
  | slot k v => exact setSlot_cmp s k v
  | _ => rfl

/-- A command that is no `MINFO` leaves STATUS.MSIGN and STATUS.MUSED (R35). -/
theorem exec_info {i : Instr} {s t : State} (h : exec i s = .next t) (other : ∀ a, i ≠ .minfo a) : SameInfo s t := by
  cases exec_effect h with
  | info m minfo =>
    obtain ⟨a, minfo⟩ := minfo
    exact absurd minfo (other a)
  | slot k v => exact ⟨setSlot_msign s k v, setSlot_mused s k v⟩
  | _ => exact ⟨rfl, rfl⟩

/-- Settles O25. -/
theorem statusFieldsAreSnapshots : Obligations.StatusFieldsAreSnapshots :=
  fun _ _ _ h => ⟨exec_cmp h, exec_info h⟩

/-! ## The frame of a command -/

/-- Every Word256 register that is not the command's destination keeps its value and its flag (R22, R23). -/
theorem exec_words {i : Instr} {s t : State} (h : exec i s = .next t) {j : Fin 8} (hj : wordDestination i ≠ some j) :
    t.wordAt j = s.wordAt j ∧ t.ovfAt j = s.ovfAt j := by
  cases exec_effect h with
  | word d v dest =>
    have : j ≠ d := fun e => hj (e ▸ dest)
    exact ⟨wordAt_setWord_ne s v false this, ovfAt_setWord_ne s v false this⟩
  | product rd a b v o p wmul =>
    subst wmul
    have : j ≠ wIndex rd := fun e => hj (e ▸ rfl)
    exact ⟨wordAt_setWord_ne { s with p := p } v o this, ovfAt_setWord_ne { s with p := p } v o this⟩
  | slot k v => exact sameWords_of_w (setSlot_w s k v) j
  | _ => exact ⟨rfl, rfl⟩

/-- Every MPInt register that is not the command's destination keeps its value (R27). -/
theorem exec_mps {i : Instr} {s t : State} (h : exec i s = .next t) {j : Fin 4} (hj : mpDestination i ≠ some j) :
    t.mpAt j = s.mpAt j := by
  cases exec_effect h with
  | mp d x dest => exact mpAt_setMp_ne s _ fun e => hj (e ▸ dest)
  | slot k v => exact mpAt_congr (setSlot_m s k v) j
  | _ => rfl

/-- Every slot byte outside the command's slot keeps its value (R39). -/
theorem exec_bytes {i : Instr} {s t : State} (h : exec i s = .next t) {a : Nat}
    (ha : ∀ k, slotDestination i = some k → ¬ (slotAddress k ≤ a ∧ a < slotAddress k + 32)) :
    t.byteAt a = s.byteAt a := by
  cases exec_effect h with
  | slot k v dest =>
    obtain ⟨-, -, -, outside, -⟩ := onlySlot_setSlot s k v
    exact outside a (ha k dest)
  | _ => rfl

/-- Settles O26. -/
theorem commandChangesOnlyItsDestination : Obligations.CommandChangesOnlyItsDestination :=
  fun _ _ _ h => ⟨fun _ hj => (exec_words h hj).1, fun _ => exec_mps h, fun _ => exec_bytes h, exec_host h⟩

/-! ## The overflow flags -/

/-- A legal command other than `WMUL` that has a Word256 destination writes it with a clear flag (R22). -/
theorem exec_word_command {i : Instr} (hw : i.wellFormed = true) {d : Fin 8} (dest : wordDestination i = some d)
    (other : ∀ rd a b, i ≠ .wmul rd a b) (s : State) : ∃ v, exec i s = .next (s.setWord d v false) := by
  cases i
  case wmul rd a b => exact absurd rfl (other rd a b)
  case nop | wst | mld | mst | madd | msub | mcmp | mcmpmag | minfo => cases dest
  all_goals
    cases dest
    exact ⟨_, whenLegal_legal hw s _⟩

/-- Settles O23. -/
theorem overflowFlagWrites : Obligations.OverflowFlagWrites := by
  refine ⟨fun i s t hw h => ⟨fun j hj => (exec_words h hj).2, ?_, fun d dest other => ?_⟩, fun _ => reset_ovfAt⟩
  · rintro rd a b rfl
    rw [exec_wmul hw] at h
    obtain rfl := Host.Outcome.next.inj h
    rw [ovfAt_setWord_self, mulOverflow_wordMul]
  · obtain ⟨v, e⟩ := exec_word_command hw dest other s
    obtain rfl := Host.Outcome.next.inj (h.symm.trans e)
    exact ovfAt_setWord_self s d v false

end Sys2Proof.Machine

/-! PROOFS. No command reads an overflow flag (`10_state.md` R22, R29): two runs from states that differ in the flags
alone, shape by shape. -/

namespace Sys2Proof.Machine

/-! ## States that differ in the flags alone: what reads the same, and which updates keep them so -/

namespace EqualButFlags
variable {s s' : State} (h : EqualButFlags s s')
include h

theorem wordAt_eq (j : Fin 8) : s'.wordAt j = s.wordAt j := by
  obtain ⟨values, -⟩ := h
  exact values j

theorem mpAt_eq (j : Fin 4) : s'.mpAt j = s.mpAt j := by
  obtain ⟨-, -, mps, -⟩ := h
  exact mpAt_congr mps j

theorem product_eq : s'.p = s.p := by
  obtain ⟨-, product, -⟩ := h
  exact product

theorem slotValue_eq (k : SlotField) : s'.slotValue k = s.slotValue k := by
  obtain ⟨-, -, -, bytes, -⟩ := h
  rw [State.slotValue, State.slotValue, bytes]

theorem setWord (d : Fin 8) (v : Value256) (o : Bool) : EqualButFlags (s.setWord d v o) (s'.setWord d v o) := by
  obtain ⟨values, rest⟩ := h
  refine ⟨fun j => ?_, rest⟩
  by_cases hj : j = d
  · rw [hj, wordAt_setWord_self, wordAt_setWord_self]
  · rw [wordAt_setWord_ne _ _ _ hj, wordAt_setWord_ne _ _ _ hj, values j]

theorem setProduct (p : Value512) : EqualButFlags { s with p := p } { s' with p := p } := by
  obtain ⟨values, -, rest⟩ := h
  exact ⟨values, rfl, rest⟩

theorem setMp (d : Fin 4) (v : MPInt) : EqualButFlags (s.setMp d v) (s'.setMp d v) := by
  obtain ⟨values, product, mps, rest⟩ := h
  exact ⟨values, product, congrArg (·.set d v) mps, rest⟩

theorem setBytes (m : Memory) : EqualButFlags { s with sb := m } { s' with sb := m } := by
  obtain ⟨values, product, mps, -, rest⟩ := h
  exact ⟨values, product, mps, rfl, rest⟩

theorem setSlot (k : SlotField) (v : Nat) : EqualButFlags (s.setSlot k v) (s'.setSlot k v) := by
  obtain ⟨-, -, -, bytes, -⟩ := id h
  rw [State.setSlot, State.setSlot, bytes]
  exact h.setBytes _

theorem setCmp (r : Ordering) : EqualButFlags (Machine.setCmp r s) (Machine.setCmp r s') := by
  obtain ⟨values, product, mps, bytes, ⟨-, info⟩, rest⟩ := h
  exact ⟨values, product, mps, bytes, ⟨rfl, info⟩, rest⟩

theorem setInfo (sign : Bool) (used : BitVec 8) :
    EqualButFlags { s with msign := sign, mused := used } { s' with msign := sign, mused := used } := by
  obtain ⟨values, product, mps, bytes, ⟨cmp, -⟩, rest⟩ := h
  exact ⟨values, product, mps, bytes, ⟨cmp, rfl, rfl⟩, rest⟩

theorem takeFault (f : FaultCause) (c : Word) : EqualButFlags (s.takeFault f c) (s'.takeFault f c) := by
  obtain ⟨values, product, mps, bytes, status, -, host⟩ := h
  exact ⟨values, product, mps, bytes, status, ⟨rfl, rfl, rfl, rfl⟩, host⟩

end EqualButFlags

/-! ## Results that differ in the flags alone -/

/-- Two answers of the command `i`: next states that differ in the flags alone, and not in the flag of the register that
a legal `i` writes. -/
def AgreeButFlags (i : Instr) (r r' : Result) : Prop :=
  ∃ t t', r = .next t ∧ r' = .next t' ∧ EqualButFlags t t' ∧
    (i.wellFormed = true → ∀ j, wordDestination i = some j → t'.ovfAt j = t.ovfAt j)

section
variable {i : Instr} {s s' : State}

theorem agree_setWord (h : EqualButFlags s s') {d : Fin 8} (dest : wordDestination i = some d) (v : Value256) (o : Bool) :
    AgreeButFlags i (.next (s.setWord d v o)) (.next (s'.setWord d v o)) := by
  refine ⟨_, _, rfl, rfl, h.setWord d v o, fun _ j hj => ?_⟩
  obtain rfl := Option.some.inj (dest.symm.trans hj)
  rw [ovfAt_setWord_self, ovfAt_setWord_self]

/-- A command without a Word256 destination has no flag to compare. -/
theorem agree_of_no_destination (noDest : wordDestination i = none) (h : EqualButFlags s s') :
    AgreeButFlags i (.next s) (.next s') :=
  ⟨s, s', rfl, rfl, h, fun _ j hj => by simp [noDest] at hj⟩

/-- Whether a command is legal does not depend on the state, and the ILLEGAL_CMD entry reads none of it. -/
theorem agree_whenLegal (h : EqualButFlags s s') {r r' : Result} (hr : AgreeButFlags i r r') :
    AgreeButFlags i (whenLegal i s r) (whenLegal i s' r') := by
  cases hw : i.wellFormed with
  | true => rwa [whenLegal_legal hw, whenLegal_legal hw]
  | false =>
    rw [whenLegal_illegal hw, whenLegal_illegal hw]
    exact ⟨_, _, rfl, rfl, h.takeFault _ _, fun legal => by simp [hw] at legal⟩

theorem agree_wordOp (h : EqualButFlags s s') (f : Value256 → Value256 → Value256) {rd : RegField} (a b : RegField)
    (dest : wordDestination i = some (wIndex rd)) : AgreeButFlags i (wordOp i f rd a b s) (wordOp i f rd a b s') := by
  refine agree_whenLegal h ?_
  rw [h.wordAt_eq, h.wordAt_eq]
  exact agree_setWord h dest _ _

theorem agree_shiftOp (h : EqualButFlags s s') (f : Value256 → Nat → Value256) {rd : RegField} (a : RegField)
    (n : ShiftAmount) (dest : wordDestination i = some (wIndex rd)) :
    AgreeButFlags i (shiftOp i f rd a n s) (shiftOp i f rd a n s') := by
  refine agree_whenLegal h ?_
  rw [h.wordAt_eq]
  exact agree_setWord h dest _ _

theorem agree_moveHalf (h : EqualButFlags s s') (half : Value512 → Value256) {rd : RegField}
    (dest : wordDestination i = some (wIndex rd)) : AgreeButFlags i (moveHalf i half rd s) (moveHalf i half rd s') := by
  refine agree_whenLegal h ?_
  rw [h.product_eq]
  exact agree_setWord h dest _ _

theorem agree_writeInteger (h : EqualButFlags s s') (noDest : wordDestination i = none) (rd : RegField) (v : Int) :
    AgreeButFlags i (writeInteger i rd v s) (writeInteger i rd v s') := by
  unfold writeInteger
  split
  · exact agree_of_no_destination noDest (h.takeFault _ _)
  · exact agree_of_no_destination noDest (h.setMp _ _)

end

/-- The two runs of one command: each shape reads register values, `P`, MPInt registers and slots, and no flag. -/
theorem exec_agree (i : Instr) {s s' : State} (h : EqualButFlags s s') : AgreeButFlags i (exec i s) (exec i s') := by
  cases i with
  | wadd rd a b => exact agree_wordOp h wordAdd a b rfl
  | wsub rd a b => exact agree_wordOp h wordSub a b rfl
  | wand rd a b => exact agree_wordOp h wordAnd a b rfl
  | wor rd a b => exact agree_wordOp h wordOr a b rfl
  | wxor rd a b => exact agree_wordOp h wordXor a b rfl
  | wshl rd a n => exact agree_shiftOp h wordShl a n rfl
  | wshr rd a n => exact agree_shiftOp h wordShr a n rfl
  | wmvpl rd => exact agree_moveHalf h lowHalf rfl
  | wmvph rd => exact agree_moveHalf h highHalf rfl
  | wmul rd a b =>
    refine agree_whenLegal h ?_
    rw [h.wordAt_eq, h.wordAt_eq]
    exact agree_setWord (h.setProduct _) rfl _ _
  | wld r k =>
    refine agree_whenLegal h ?_
    rw [h.slotValue_eq]
    exact agree_setWord h rfl _ _
  | nop => exact agree_of_no_destination rfl h
  | wst r k =>
    refine agree_whenLegal h ?_
    rw [h.wordAt_eq]
    exact agree_of_no_destination rfl (h.setSlot _ _)
  | mld r sign k =>
    refine agree_whenLegal h ?_
    rw [h.slotValue_eq]
    exact agree_of_no_destination rfl (h.setMp _ _)
  | mst r k =>
    refine agree_whenLegal h ?_
    rw [h.mpAt_eq]
    by_cases wide : mag (s.mpAt (mIndex r)) ≥ 2 ^ Config.narrowBits
    · simp only [if_pos wide]
      exact agree_of_no_destination rfl (h.takeFault _ _)
    · simp only [if_neg wide]
      exact agree_of_no_destination rfl (h.setSlot _ _)
  | madd rd a b =>
    refine agree_whenLegal h ?_
    rw [h.mpAt_eq, h.mpAt_eq]
    exact agree_writeInteger h rfl rd _
  | msub rd a b =>
    refine agree_whenLegal h ?_
    rw [h.mpAt_eq, h.mpAt_eq]
    exact agree_writeInteger h rfl rd _
  | mcmp a b =>
    refine agree_whenLegal h ?_
    rw [h.mpAt_eq, h.mpAt_eq]
    exact agree_of_no_destination rfl (h.setCmp _)
  | mcmpmag a b =>
    refine agree_whenLegal h ?_
    rw [h.mpAt_eq, h.mpAt_eq]
    exact agree_of_no_destination rfl (h.setCmp _)
  | minfo a =>
    refine agree_whenLegal h ?_
    rw [h.mpAt_eq]
    exact agree_of_no_destination rfl (h.setInfo _ _)

/-- Settles O24. -/
theorem noCommandReadsOverflowFlags : Obligations.NoCommandReadsOverflowFlags := by
  intro i s s' t h ht
  obtain ⟨u, t', hu, ht', same, flag⟩ := exec_agree i h
  obtain rfl := Host.Outcome.next.inj (hu.symm.trans ht)
  exact ⟨t', ht', same, flag⟩

end Sys2Proof.Machine

/-! PROOFS. The registers the host reads (`10_state.md` R35 to R38) and the reset state (R41). -/

namespace Sys2Proof.Machine

/-! ## STATUS (R35) -/

/-- Bit `i` of WOVF is the flag of register `i`. -/
theorem wovf_getLsbD (s : State) (i : Fin 8) : (wovf s).getLsbD i.val = s.ovfAt i := by
  rw [wovf]
  iterate 7 rw [BitVec.getLsbD_append]
  fin_cases i <;> simp [ovfBit, State.ovfAt]

/-! A field of STATUS is found by taking off the fields below it, one append each. -/

section
variable (s : State)

theorem statusWord_fault : (statusWord s).getLsbD 0 = s.fault := by
  rw [statusWord, BitVec.getLsbD_append]
  simp

theorem statusWord_cmp : (statusWord s).extractLsb' 1 2 = cmpCode s.cmp := by
  rw [statusWord, BitVec.extractLsb'_append_eq_of_le (by decide)]
  exact BitVec.extractLsb'_append_eq_right

theorem statusWord_msign : (statusWord s).getLsbD 3 = s.msign := by
  rw [statusWord]
  iterate 3 rw [BitVec.getLsbD_append]
  simp

theorem statusWord_low_reserved : (statusWord s).extractLsb' 4 4 = 0 := by
  rw [statusWord]
  iterate 3 rw [BitVec.extractLsb'_append_eq_of_le (by decide)]
  exact BitVec.extractLsb'_append_eq_right

theorem statusWord_mused : (statusWord s).extractLsb' 8 8 = s.mused := by
  rw [statusWord]
  iterate 4 rw [BitVec.extractLsb'_append_eq_of_le (by decide)]
  exact BitVec.extractLsb'_append_eq_right

theorem statusWord_wovf : (statusWord s).extractLsb' 16 8 = wovf s := by
  rw [statusWord]
  iterate 5 rw [BitVec.extractLsb'_append_eq_of_le (by decide)]
  exact BitVec.extractLsb'_append_eq_right

theorem statusWord_high_reserved : (statusWord s).extractLsb' 24 8 = 0 := by
  rw [statusWord]
  iterate 6 rw [BitVec.extractLsb'_append_eq_of_le (by decide)]
  exact BitVec.extractLsb'_eq_self

theorem statusWord_ovf (i : Fin 8) : (statusWord s).getLsbD (16 + i.val) = s.ovfAt i := by
  rw [← wovf_getLsbD, ← statusWord_wovf, BitVec.getLsbD_extractLsb']
  simp

end

/-- Settles O13, field by field. -/
theorem statusWordLayout : Obligations.StatusWordLayout := fun s =>
  ⟨statusWord_fault s, (statusWord_cmp s).trans (by cases s.cmp <;> rfl), statusWord_msign s, statusWord_low_reserved s,
    statusWord_mused s, statusWord_ovf s, statusWord_high_reserved s⟩

/-! ## The fault registers (R36 to R38) -/

/-- What a recorded cause says of the recorded word (R260, R267). -/
theorem explains_cases {f : FaultCause} {c : Word} (h : explains f c = true) :
    (f = .illegalCmd ∧ ∃ e, decode c = .error e) ∨
    (f = .mpCapacity ∧ ∃ rd a b, decode c = .ok (.madd rd a b) ∨ decode c = .ok (.msub rd a b)) ∨
    (f = .narrowOverflow ∧ ∃ r slot, decode c = .ok (.mst r slot)) := by
  unfold explains at h
  split at h
  · next illegal => exact .inl ⟨rfl, _, illegal⟩
  · next madd => exact .inr (.inl ⟨rfl, _, _, _, .inl madd⟩)
  · next msub => exact .inr (.inl ⟨rfl, _, _, _, .inr msub⟩)
  · next mst => exact .inr (.inr ⟨rfl, _, _, mst⟩)
  · cases h

theorem faultRecordOk_of_fault {s : State} (hf : s.fault = true) :
    faultRecordOk s = true ↔ explains s.fcause s.fcmd = true ∧ s.finfo = causeInfo s.fcause := by
  simp [faultRecordOk, hf]

theorem faultRecordOk_of_no_fault {s : State} (hf : s.fault = false) :
    faultRecordOk s = true ↔ s.fcause = .none ∧ s.fcmd = 0 ∧ s.finfo = 0 := by
  simp [faultRecordOk, hf]

/-- Settles O14. -/
theorem faultRegisterContents : Obligations.FaultRegisterContents := by
  refine fun s ok => ⟨fun clear => ?_, fun faulted => ?_⟩
  · obtain ⟨cause, command, info⟩ := (faultRecordOk_of_no_fault clear).1 ok
    exact ⟨by simp only [csrWord, fcauseWord, cause]; rfl, command, info⟩
  · obtain ⟨explained, info⟩ := (faultRecordOk_of_fault faulted).1 ok
    simp only [csrWord, fcauseWord, info]
    rcases explains_cases explained with ⟨cause, word⟩ | ⟨cause, word⟩ | ⟨cause, word⟩ <;> rw [cause]
    · exact .inl ⟨rfl, rfl, word⟩
    · exact .inr (.inl ⟨rfl, rfl, word⟩)
    · exact .inr (.inr ⟨rfl, rfl, word⟩)

/-! ## Reset (R41) -/

theorem limb_zero (j : Nat) : limb 0 j = 0 := by simp [limb]

theorem productLimb_zero (j : Nat) : productLimb 0 j = 0 := by simp [productLimb]

/-- Every digit of canonical zero is 0 (R27). -/
theorem digitAt_mpint_zero (k : Nat) : digitAt MPInt.zero.dp k = 0 := by
  obtain ⟨-, -, clean⟩ := (normalized_iff _).1 normalized_zero
  exact clean k (Nat.zero_le k)

/-- Each readable register is 0 after reset, whatever the host still has to do. -/
theorem csrWord_reset (rest : List HostAccess) (r : Csr) : csrWord { State.reset with pending := rest } r = 0 := by
  have same : csrWord { State.reset with pending := rest } r = csrWord State.reset r := by cases r <;> rfl
  rw [same]
  cases r <;> decide

/-- Settles O15: hard and soft reset differ in the host's list alone. -/
theorem resetValues : Obligations.ResetValues := by
  intro t ht
  obtain ⟨rest, rfl⟩ : ∃ rest, t = { State.reset with pending := rest } := by
    rcases ht with rfl | ⟨s, rfl⟩
    · exact ⟨[], rfl⟩
    · exact ⟨s.pending, rfl⟩
  have words (i : Fin 8) : State.wordAt { State.reset with pending := rest } i = 0 := reset_wordAt i
  have mps (i : Fin 4) : State.mpAt { State.reset with pending := rest } i = MPInt.zero := reset_mpAt i
  refine ⟨fun i => ⟨fun j => ?_, reset_ovfAt i⟩, fun j => ?_, fun i => ?_, reset_byteAt, rfl, rfl, rfl, rfl,
    csrWord_reset rest _, csrWord_reset rest _, csrWord_reset rest _, csrWord_reset rest _⟩
  · rw [words, limb_zero]
  · rw [reset_p, productLimb_zero]
  · rw [mps]
    exact ⟨rfl, rfl, digitAt_mpint_zero⟩

end Sys2Proof.Machine

/-! PROOFS. The invariant (`10_state.md` R27, R36 to R39, `40_mpint_compare.md` R126): it holds at reset, and every layer
of a step keeps it. -/

namespace Sys2Proof.Machine

/-! ## The invariant, and the updates that keep it -/

theorem inv_iff (s : State) :
    s.inv = true ↔ (∀ i, normalized (s.mpAt i) = true) ∧ Memory.wf s.sb = true ∧ Memory.inBuffer s.sb = true ∧
      faultRecordOk s = true ∧ s.mused.toNat ≤ 10 := by
  simp [State.inv, and_assoc]

/-- Settles O17. -/
theorem invariantHoldsAtReset : Obligations.InvariantHoldsAtReset := by
  refine (inv_iff State.reset).2 ⟨fun i => ?_, reset_sb_wf, reset_sb_inBuffer, ?_, Nat.zero_le _⟩
  · rw [reset_mpAt]
    exact normalized_zero
  · exact (faultRecordOk_of_no_fault reset_fault).2 ⟨rfl, rfl, rfl⟩

/-! The invariant speaks neither of the Word256 file and `P`, nor of CMP, nor of the host's side. -/

theorem inv_setWord (s : State) (d : Fin 8) (v : Value256) (o : Bool) : (s.setWord d v o).inv = s.inv := rfl
theorem inv_setProduct (s : State) (p : Value512) : State.inv { s with p := p } = s.inv := rfl
theorem inv_setCmp (s : State) (r : Ordering) : (setCmp r s).inv = s.inv := rfl
theorem inv_hostRead (s : State) (v : Option HostValue) : State.inv { s with hostRead := v } = s.inv := rfl
theorem inv_performing (s : State) (rest : List HostAccess) : (performing rest s).inv = s.inv := rfl
theorem inv_softReset (s : State) : s.softReset.inv = State.reset.inv := rfl

section
variable {s : State} (h : s.inv = true)
include h

theorem inv_setMp (d : Fin 4) {v : MPInt} (hv : normalized v = true) : (s.setMp d v).inv = true := by
  obtain ⟨mps, rest⟩ := (inv_iff s).1 h
  refine (inv_iff _).2 ⟨fun i => ?_, rest⟩
  by_cases hi : i = d
  · rwa [hi, mpAt_setMp_self]
  · rw [mpAt_setMp_ne s v hi]
    exact mps i

/-- A new slot buffer keeps the invariant if it is canonical and in range. -/
theorem inv_setBytes {m : Memory} (wf : Memory.wf m = true) (range : Memory.inBuffer m = true) :
    State.inv { s with sb := m } = true := by
  obtain ⟨mps, -, -, rest⟩ := (inv_iff s).1 h
  exact (inv_iff _).2 ⟨mps, wf, range, rest⟩

theorem inv_setByte (a : BitVec 9) (b : Byte) : (s.setByte a.toNat b).inv = true := by
  obtain ⟨-, wf, range, -⟩ := (inv_iff s).1 h
  exact inv_setBytes h (wf_write _ b wf) (inBuffer_write a.isLt b range)

theorem inv_setSlot (k : SlotField) (v : Nat) : (s.setSlot k v).inv = true := by
  obtain ⟨-, wf, range, -⟩ := (inv_iff s).1 h
  obtain ⟨wf', range'⟩ := setSlot_keeps s k v wf range
  rw [setSlot_sb] at wf' range'
  exact inv_setBytes h wf' range'

theorem inv_setInfo (sign : Bool) (used : Fin 11) : State.inv { s with msign := sign, mused := usedField used } = true := by
  obtain ⟨mps, wf, range, record, -⟩ := (inv_iff s).1 h
  refine (inv_iff _).2 ⟨mps, wf, range, record, ?_⟩
  exact (Nat.mod_le _ _).trans (Nat.le_of_lt_succ used.isLt)

/-- Taking a fault keeps the invariant if the recorded word explains the cause (R267). -/
theorem inv_takeFault {f : FaultCause} {c : Word} (explained : explains f c = true) : (s.takeFault f c).inv = true := by
  obtain ⟨mps, wf, range, -, mused⟩ := (inv_iff s).1 h
  exact (inv_iff _).2 ⟨mps, wf, range, (faultRecordOk_of_fault rfl).2 ⟨explained, rfl⟩, mused⟩

end

/-! ## The word of a faulting command explains its fault -/

theorem wellFormed_of_accept {zeros : Bool} {i j : Instr} (h : accept zeros i = .ok j) : j.wellFormed = true := by
  unfold accept at h
  split at h
  · split at h
    · next wf => exact Except.ok.inj h ▸ wf
    · cases h
  · cases h

/-- What decodes has legal operands (R92, R102). -/
theorem wellFormed_of_decode {c : Word} {i : Instr} (h : decode c = .ok i) : i.wellFormed = true := by
  unfold decode at h
  dsimp only at h
  split at h
  case h_21 => cases h
  all_goals exact wellFormed_of_accept h

theorem decode_encode_madd {rd a b : RegField} (hw : Instr.wellFormed (.madd rd a b) = true) :
    decode (encode (.madd rd a b)) = .ok (.madd rd a b) := by
  simp [decode, encode, accept, hw]

theorem decode_encode_msub {rd a b : RegField} (hw : Instr.wellFormed (.msub rd a b) = true) :
    decode (encode (.msub rd a b)) = .ok (.msub rd a b) := by
  simp [decode, encode, accept, hw]

theorem decode_encode_mst {r : RegField} {k : SlotField} (hw : Instr.wellFormed (.mst r k) = true) :
    decode (encode (.mst r k)) = .ok (.mst r k) := by
  simp [decode, encode, accept, formatMZeros, hw]

/-- The three commands that can fault, each with its cause, are the ones `explains` lists (R260). -/
theorem explains_of_faultRaised {i : Instr} {s : State} {f : FaultCause} (hw : i.wellFormed = true)
    (hf : faultRaised i s = some f) : explains f (encode i) = true := by
  cases i
  case madd =>
    obtain ⟨-, ⟨⟩⟩ := Option.ite_none_right_eq_some.1 hf
    simp only [explains, decode_encode_madd hw]
  case msub =>
    obtain ⟨-, ⟨⟩⟩ := Option.ite_none_right_eq_some.1 hf
    simp only [explains, decode_encode_msub hw]
  case mst =>
    obtain ⟨-, ⟨⟩⟩ := Option.ite_none_right_eq_some.1 hf
    simp only [explains, decode_encode_mst hw]
  all_goals cases hf

/-! ## Every layer of a step keeps the invariant -/

theorem exec_keeps_inv {i : Instr} {s t : State} (hw : i.wellFormed = true) (h : s.inv = true) (ht : exec i s = .next t) :
    t.inv = true := by
  cases exec_effect ht with
  | word d v => rwa [inv_setWord]
  | product rd a b v o p => rwa [inv_setWord, inv_setProduct]
  | mp d x _ fits => exact inv_setMp h d (normalized_mpFromInt fits)
  | slot k v => exact inv_setSlot h k v
  | nop => exact h
  | cmp r => rwa [inv_setCmp]
  | info m => exact inv_setInfo h m.sign m.used
  | fault f cause =>
    rcases cause with ⟨illegal, -⟩ | ⟨-, raised⟩
    · simp [hw] at illegal
    · exact inv_takeFault h (explains_of_faultRaised hw raised)

theorem runCommand_keeps_inv {c : Word} {s t : State} (h : s.inv = true) (ht : runCommand c s = .next t) :
    t.inv = true := by
  rcases runCommand_cases c s with ⟨-, dropped⟩ | ⟨-, ⟨e, illegal⟩, answer⟩ | ⟨-, i, decoded, executed⟩
  · obtain rfl := Host.Outcome.next.inj (dropped.symm.trans ht)
    exact h
  · obtain rfl := Host.Outcome.next.inj (answer.symm.trans ht)
    exact inv_takeFault h (by simp only [explains, illegal])
  · exact exec_keeps_inv (wellFormed_of_decode decoded) h (executed.symm.trans ht)

theorem perform_keeps_inv {o : HostOp} {s t : State} (h : s.inv = true) (ht : perform o s = .next t) : t.inv = true := by
  cases o with
  | cmd c => exact runCommand_keeps_inv h ht
  | writeSB a b =>
    obtain rfl := Host.Outcome.next.inj ht
    exact inv_setByte h a b
  | readSB a =>
    obtain rfl := Host.Outcome.next.inj ht
    rwa [inv_hostRead]
  | readCSR r =>
    obtain rfl := Host.Outcome.next.inj ht
    rwa [inv_hostRead]
  | reset =>
    obtain rfl := Host.Outcome.next.inj ht
    rw [inv_softReset]
    exact invariantHoldsAtReset

theorem performAccess_keeps_inv {x : HostAccess} {s t : State} (h : s.inv = true) (ht : performAccess x s = .next t) :
    t.inv = true := by
  rcases performAccess_cases x s with ⟨o, operation⟩ | strayWrite | ⟨n, strayRead⟩
  · exact perform_keeps_inv h (operation.symm.trans ht)
  · obtain rfl := Host.Outcome.next.inj (strayWrite.symm.trans ht)
    exact h
  · obtain rfl := Host.Outcome.next.inj (strayRead.symm.trans ht)
    rwa [inv_hostRead]

/-- Settles O18. -/
theorem stepKeepsInvariant : Obligations.StepKeepsInvariant := by
  intro s t h ht
  cases hp : s.pending with
  | nil =>
    obtain rfl := Host.Outcome.next.inj ((step_idle hp).symm.trans ht)
    exact h
  | cons x rest =>
    rw [← inv_performing s rest] at h
    exact performAccess_keeps_inv h ((step_perform hp).symm.trans ht)

end Sys2Proof.Machine

/-! PROOFS. The host's access to the unit (`20_memory.md` R64 to R67): which operation an access of the window is, what the
operations that are no command do, and what an access that is none leaves as it was. -/

namespace Sys2Proof.Machine

/-! ## Which operation an access is (R66) -/

theorem writeOperation_byte {a : Nat} (ha : a < 512) (v : Nat) :
    writeOperation a 1 v = some (.writeSB (BitVec.ofNat 9 a) (BitVec.ofNat 8 v)) :=
  if_pos ⟨rfl, ha⟩

theorem readOperation_byte {a : Nat} (ha : a < 512) : readOperation a 1 = some (.readSB (BitVec.ofNat 9 a)) :=
  if_pos ⟨rfl, ha⟩

/-- A 32-bit write to CTRL is the reset exactly when bit 0 of the number is 1 (R34). -/
theorem writeOperation_ctrl (v : Nat) : writeOperation 0x214 4 v = if v % 2 = 1 then some .reset else none := by
  have bit0 : (BitVec.ofNat 32 v).getLsbD 0 = decide (v % 2 = 1) := by
    rw [BitVec.getLsbD_ofNat, Nat.testBit_zero, decide_eq_true (by decide : 0 < 32), Bool.true_and]
  simp only [writeOperation, bit0]
  simp

/-- A write that is neither of a slot byte nor 32 bits wide at CMD or CTRL is no operation (R64). -/
theorem writeOperation_stray {offset bytes : Nat} (v : Nat) (hbyte : ¬ (bytes = 1 ∧ offset < 512))
    (hregister : ¬ (bytes = 4 ∧ (offset = 0x200 ∨ offset = 0x214))) : writeOperation offset bytes v = none := by
  simp only [writeOperation, Config.sbBytes, Config.offCmd, Config.offCtrl]
  rw [if_neg hbyte, if_neg fun ⟨wide, cmd⟩ => hregister ⟨wide, .inl cmd⟩,
    if_neg fun ⟨wide, ctrl, _⟩ => hregister ⟨wide, .inr ctrl⟩]

/-- A read that is neither of a slot byte nor 32 bits wide at a readable register is no operation (R64). -/
theorem readOperation_stray {offset bytes : Nat} (hbyte : ¬ (bytes = 1 ∧ offset < 512))
    (hregister : ¬ (bytes = 4 ∧ (offset = 0x204 ∨ offset = 0x208 ∨ offset = 0x20C ∨ offset = 0x210))) :
    readOperation offset bytes = none := by
  simp only [readOperation, Config.sbBytes, Config.offStatus, Config.offFcause, Config.offFcmd, Config.offFinfo]
  rw [if_neg hbyte, if_neg fun ⟨wide, status⟩ => hregister ⟨wide, .inl status⟩,
    if_neg fun ⟨wide, fcause⟩ => hregister ⟨wide, .inr (.inl fcause)⟩,
    if_neg fun ⟨wide, fcmd⟩ => hregister ⟨wide, .inr (.inr (.inl fcmd))⟩,
    if_neg fun ⟨wide, finfo⟩ => hregister ⟨wide, .inr (.inr (.inr finfo))⟩]

/-! ## The step that performs an access -/

/-- A byte just written reads back (R65). -/
theorem byteAt_setByte_self {s : State} (h : Memory.wf s.sb = true) (a : Nat) (b : Byte) : (s.setByte a b).byteAt a = b :=
  read_write_self a b h

theorem byteAt_setByte_ne (s : State) {a a' : Nat} (b : Byte) (h : a' ≠ a) : (s.setByte a b).byteAt a' = s.byteAt a' :=
  read_write_ne h b s.sb

section
variable (s : State) (rest : List HostAccess)

/-- The readable registers show the unit's state and nothing of the host's side (R35 to R38). -/
theorem csrWord_performing (r : Csr) : csrWord (performing rest s) r = csrWord s r := by
  cases r <;> rfl

/-- Taking an access off the list and returning a value touch the host's side alone. -/
theorem sameUnit_performing (v : Option HostValue) : SameUnit s { performing rest s with hostRead := v } :=
  ⟨sameWords_of_w rfl, rfl, sameMps_of_m rfl, sameBytes_of_sb rfl, ⟨rfl, rfl, rfl⟩, rfl, rfl, rfl, rfl⟩

theorem step_nextAccess (x : HostAccess) : step (nextAccess x rest s) = performAccess x (performing rest s) :=
  step_perform rfl

theorem step_writeSB (a : BitVec 9) (b : Byte) :
    step (nextAccess (.op (.writeSB a b)) rest s) = .next ((performing rest s).setByte a.toNat b) := rfl

theorem step_readSB (a : BitVec 9) :
    step (nextAccess (.op (.readSB a)) rest s) =
      .next { performing rest s with hostRead := some (.byte (s.byteAt a.toNat)) } := rfl

theorem step_readCSR (r : Csr) :
    step (nextAccess (.op (.readCSR r)) rest s) =
      .next { performing rest s with hostRead := some (.word (csrWord s r)) } := by
  rw [step_nextAccess, ← csrWord_performing s rest r]
  rfl

/-- An access of the window steps as the operation it is. -/
theorem step_access_of_operation {x : HostAccess} {o : HostOp} (h : operationOf x = some o) :
    step (nextAccess x rest s) = step (nextAccess (.op o) rest s) := by
  rw [step_nextAccess, step_nextAccess]
  cases x with
  | op o' => rw [Option.some.inj h]
  | windowWrite offset bytes v =>
    have is_operation : writeOperation offset bytes v = some o := h
    simp only [performAccess, is_operation]
  | windowRead offset bytes =>
    have is_operation : readOperation offset bytes = some o := h
    simp only [performAccess, is_operation]

theorem step_stray_write {offset bytes v : Nat} (h : writeOperation offset bytes v = none) :
    step (nextAccess (.windowWrite offset bytes v) rest s) = .next (performing rest s) := by
  simp only [step_nextAccess, performAccess, h]

theorem step_stray_read {offset bytes : Nat} (h : readOperation offset bytes = none) :
    step (nextAccess (.windowRead offset bytes) rest s) =
      .next { performing rest s with hostRead := some (.zero bytes) } := by
  simp only [step_nextAccess, performAccess, h]

end

/-- Settles O11: each clause names the operation its access is, but for the write to CTRL that is none (log entry 9). -/
theorem windowAddressMap : Obligations.WindowAddressMap := fun s rest v =>
  ⟨fun _ ha => ⟨step_access_of_operation s rest (writeOperation_byte ha v),
      step_access_of_operation s rest (readOperation_byte ha)⟩,
    step_access_of_operation s rest rfl, step_access_of_operation s rest rfl, step_access_of_operation s rest rfl,
    step_access_of_operation s rest rfl, step_access_of_operation s rest rfl,
    fun odd => step_access_of_operation s rest ((writeOperation_ctrl v).trans (if_pos odd)),
    fun even => step_stray_write s rest ((writeOperation_ctrl v).trans (if_neg (by omega)))⟩

/-- Settles O10: the steps of the three operations hold in every state, since the command write alone looks at
STATUS.FAULT (R67). -/
theorem hostAccessAllowedAtAllTimes : Obligations.HostAccessAllowedAtAllTimes := by
  refine fun s rest => ⟨fun a b wf => ?_, fun a => ?_, fun r => ?_⟩
  · exact ⟨_, step_writeSB s rest a b, byteAt_setByte_self wf _ b, fun _ ne => byteAt_setByte_ne _ b ne,
      sameWords_of_w rfl, rfl, sameMps_of_m rfl, ⟨rfl, rfl, rfl⟩, ⟨rfl, rfl, rfl, rfl⟩, rfl, rfl⟩
  · exact ⟨_, step_readSB s rest a, rfl, sameUnit_performing s rest _, rfl⟩
  · exact ⟨_, step_readCSR s rest r, rfl, sameUnit_performing s rest _, rfl⟩

/-! ## Slots and stray accesses (R64, R94) -/

/-- A slot is 32 aligned bytes of the 512. -/
theorem slotAddress_aligned (slot : SlotField) :
    slotAddress slot = 32 * slot.toNat ∧ slotAddress slot % 32 = 0 ∧ slotAddress slot + 31 < 512 :=
  ⟨rfl, Nat.mul_mod_right 32 _, slotAddress_le slot⟩

/-- Settles O12. -/
theorem strayAccessesHaveNoEffect : Obligations.StrayAccessesHaveNoEffect := by
  refine ⟨slotAddress_aligned, fun s rest offset bytes v hbyte => ⟨fun hregister => ?_, fun hregister => ?_⟩⟩
  · exact ⟨_, step_stray_write s rest (writeOperation_stray v hbyte hregister), sameUnit_performing s rest none, rfl, rfl⟩
  · exact ⟨_, .zero bytes, step_stray_read s rest (readOperation_stray hbyte hregister), sameUnit_performing s rest _, rfl,
      rfl, rfl⟩

end Sys2Proof.Machine

/-! PROOFS. The encoding (`30_encoding.md` R91, R92, R100 to R102): the decoder inverts the encoder in both directions, and
it is the opcode map read by mask and match. -/

namespace Sys2Proof

/-! ## The decoder on the word of a command -/

/-- The decoder finds the must-be-zero fields of an encoded command zero, so its register indices decide. -/
theorem decode_encode (i : Instr) : decode (encode i) = accept true i := by
  cases i
  case wshl | wshr => simp [decode, encode]
  case wld | wst | mld | mst => simp [decode, encode, formatMZeros]
  all_goals simp [decode, encode]

/-- What the decoder accepts: zero must-be-zero fields and register indices in range (R102). -/
theorem accept_eq_ok {zeros : Bool} {i j : Instr} :
    accept zeros i = .ok j ↔ zeros = true ∧ i.wellFormed = true ∧ i = j := by
  cases zeros <;> cases hw : i.wellFormed <;> simp [accept, hw]

theorem accept_wellFormed {i : Instr} (h : i.wellFormed = true) : accept true i = .ok i :=
  accept_eq_ok.2 ⟨rfl, h, rfl⟩

/-- Settles O2: what the decoder reads back it accepts, since the register indices are in range. -/
theorem decodeOfEncodeGivesCommand : Obligations.DecodeOfEncodeGivesCommand :=
  fun i h => (decode_encode i).trans (accept_wellFormed h)

/-! ## A word from its fields (R91) -/

section
variable {c : Word} {op : BitVec 8}

/-- A word is the Format R word of its opcode and register fields when its low field is 0. -/
theorem formatR_of_fields {rd rs1 rs2 : RegField} (hop : (opField c).toNat = op.toNat) (hrd : rdField c = rd)
    (hrs1 : rs1Field c = rs1) (hrs2 : rs2Field c = rs2) (low : low12Field c = 0) : formatR op rd rs1 rs2 = c :=
  calc
    _ = opField c ++ rdField c ++ rs1Field c ++ rs2Field c ++ low12Field c := by
      rw [BitVec.eq_of_toNat_eq hop, hrd, hrs1, hrs2, low]; rfl
    _ = c := by
      unfold opField rdField rs1Field rs2Field low12Field
      rw [BitVec.extractLsb'_append_extractLsb'_eq_extractLsb', BitVec.extractLsb'_append_extractLsb'_eq_extractLsb',
        BitVec.extractLsb'_append_extractLsb'_eq_extractLsb', BitVec.extractLsb'_append_extractLsb'] <;> rfl

/-- Every word is the Format I word of its fields. -/
theorem formatI_of_fields (hop : (opField c).toNat = op.toNat) :
    formatI op (rdField c) (rs1Field c) (imm16Field c) = c := by
  rw [← BitVec.eq_of_toNat_eq hop]
  unfold formatI opField rdField rs1Field imm16Field
  rw [BitVec.extractLsb'_append_extractLsb'_eq_extractLsb', BitVec.extractLsb'_append_extractLsb'_eq_extractLsb',
    BitVec.extractLsb'_append_extractLsb'] <;> rfl

/-- The field `s` as a field of one bit. -/
theorem ofBool_sField (c : Word) : BitVec.ofBool (sField c) = c.extractLsb' 16 1 := by
  ext k hk
  simp [sField, Nat.lt_one_iff.1 hk]

/-- A word is the Format M word of its fields when the two fields between them are 0. -/
theorem formatM_of_fields {s : Bool} (hop : (opField c).toNat = op.toNat) (high : mHighField c = 0) (hs : sField c = s)
    (mid : mMidField c = 0) : formatM op (rdField c) s (slotField c) = c :=
  calc
    _ = opField c ++ rdField c ++ mHighField c ++ BitVec.ofBool (sField c) ++ mMidField c ++ slotField c := by
      rw [BitVec.eq_of_toNat_eq hop, high, hs, mid]; rfl
    _ = c := by
      rw [ofBool_sField]
      unfold opField rdField mHighField mMidField slotField
      rw [BitVec.extractLsb'_append_extractLsb'_eq_extractLsb', BitVec.extractLsb'_append_extractLsb'_eq_extractLsb',
        BitVec.extractLsb'_append_extractLsb'_eq_extractLsb', BitVec.extractLsb'_append_extractLsb'_eq_extractLsb',
        BitVec.extractLsb'_append_extractLsb'] <;> rfl

end

/-! ## The word of what a word decodes to -/

/-- The decoder leaves no bit unread: a bit it does not hand on as an operand it compares with 0. The cases stand in the
order of the decoder's rows. -/
theorem encode_of_decode {c : Word} {i : Instr} (h : decode c = .ok i) : encode i = c := by
  unfold decode at h
  dsimp only at h
  split at h
  case h_21 => cases h
  all_goals obtain ⟨zeros, -, rfl⟩ := accept_eq_ok.1 h
  -- Format I: the shifts, which have no must-be-zero field.
  case h_8 op | h_9 op => exact formatI_of_fields op
  all_goals simp only [formatMZeros, Bool.and_eq_true, Bool.not_eq_true', beq_iff_eq] at zeros
  -- Format M: `WLD`, `WST`, `MST` with a zero `s`, and `MLD`.
  case h_12 op | h_13 op | h_15 op =>
    obtain ⟨⟨high, sign⟩, mid⟩ := zeros
    exact formatM_of_fields op high sign mid
  case h_14 op => exact formatM_of_fields op zeros.1 rfl zeros.2
  -- Format R: `NOP`, the moves, the comparisons and `MINFO` leave register fields unused.
  case h_1 op =>
    obtain ⟨⟨⟨rd, rs1⟩, rs2⟩, low⟩ := zeros
    exact formatR_of_fields op rd rs1 rs2 low
  case h_10 op | h_11 op =>
    obtain ⟨⟨rs1, rs2⟩, low⟩ := zeros
    exact formatR_of_fields op rfl rs1 rs2 low
  case h_18 op | h_19 op =>
    obtain ⟨rd, low⟩ := zeros
    exact formatR_of_fields op rd rfl rfl low
  case h_20 op =>
    obtain ⟨⟨rd, rs2⟩, low⟩ := zeros
    exact formatR_of_fields op rd rfl rs2 low
  -- Format R with three registers.
  all_goals
    rename_i op
    exact formatR_of_fields op rfl rfl rfl zeros

/-- Settles O3: `accept` gives the range of the operands, the formats give the word. -/
theorem encodeOfDecodeGivesWord : Obligations.EncodeOfDecodeGivesWord :=
  fun _ _ h => ⟨Machine.wellFormed_of_decode h, encode_of_decode h⟩

/-! ## The opcode map (R101) -/

open Laws.OpcodeRow (mnemonicOf)

/-- Every legal command has its row. -/
theorem row_of_command (i : Instr) : Laws.OpcodeRow.Statement i := by
  cases i
  case nop => exact Laws.OpcodeRow.nop
  case wadd => exact Laws.OpcodeRow.wadd _ _ _
  case wsub => exact Laws.OpcodeRow.wsub _ _ _
  case wmul => exact Laws.OpcodeRow.wmul _ _ _
  case wand => exact Laws.OpcodeRow.wand _ _ _
  case wor => exact Laws.OpcodeRow.wor _ _ _
  case wxor => exact Laws.OpcodeRow.wxor _ _ _
  case wshl => exact Laws.OpcodeRow.wshl _ _ _
  case wshr => exact Laws.OpcodeRow.wshr _ _ _
  case wmvpl => exact Laws.OpcodeRow.wmvpl _
  case wmvph => exact Laws.OpcodeRow.wmvph _
  case wld => exact Laws.OpcodeRow.wld _ _
  case wst => exact Laws.OpcodeRow.wst _ _
  case mld => exact Laws.OpcodeRow.mld _ _ _
  case mst => exact Laws.OpcodeRow.mst _ _
  case madd => exact Laws.OpcodeRow.madd _ _ _
  case msub => exact Laws.OpcodeRow.msub _ _ _
  case mcmp => exact Laws.OpcodeRow.mcmp _ _
  case mcmpmag => exact Laws.OpcodeRow.mcmpmag _ _
  case minfo => exact Laws.OpcodeRow.minfo _

/-- A row names the command its fields make. -/
theorem mnemonicOf_fields : ∀ row ∈ opcodeMap, ∀ c, mnemonicOf (row.fields c) = row.mnemonic := by
  simp [opcodeMap, fieldsR, mnemonicOf]

/-! ## A mask read field by field -/

section
variable {c m p : Word} (hit : c &&& m = p)
include hit

theorem opField_of_and : opField c &&& opField m = opField p := hit ▸ BitVec.extractLsb'_and.symm
theorem rdField_of_and : rdField c &&& rdField m = rdField p := hit ▸ BitVec.extractLsb'_and.symm
theorem rs1Field_of_and : rs1Field c &&& rs1Field m = rs1Field p := hit ▸ BitVec.extractLsb'_and.symm
theorem rs2Field_of_and : rs2Field c &&& rs2Field m = rs2Field p := hit ▸ BitVec.extractLsb'_and.symm
theorem low12Field_of_and : low12Field c &&& low12Field m = low12Field p := hit ▸ BitVec.extractLsb'_and.symm
theorem mHighField_of_and : mHighField c &&& mHighField m = mHighField p := hit ▸ BitVec.extractLsb'_and.symm
theorem sField_of_and : (sField c && sField m) = sField p := hit ▸ BitVec.getLsbD_and.symm
theorem mMidField_of_and : mMidField c &&& mMidField m = mMidField p := hit ▸ BitVec.extractLsb'_and.symm

end

/-- A field under a mask of ones is compared whole. -/
theorem eq_of_and_ones {n : Nat} {f g : BitVec n} (h : f &&& BitVec.allOnes n = g) : f = g := by
  rwa [BitVec.and_allOnes] at h

/-- A mask on bit 3 checks a Word256 register field (R92). -/
theorem isWReg_of_and : ∀ {f : RegField}, f &&& 8#4 = 0#4 → isWReg f = true := by decide

/-- A mask on bits 3:2 checks an MPInt register field (R92). -/
theorem isMReg_of_and : ∀ {f : RegField}, f &&& 12#4 = 0#4 → isMReg f = true := by decide

/-! ## A row that matches is what the decoder answers -/

/-- The word of a legal command, however it is written, decodes to the command. -/
theorem decode_of_encode {c : Word} {i : Instr} (word : encode i = c) (wf : i.wellFormed = true) : decode c = .ok i :=
  word ▸ decodeOfEncodeGivesCommand i wf

/-- The masks leave free exactly the operand bits, so a word that matches a row is the word of the command read from it,
and its register fields are in range. -/
theorem decode_of_hits : ∀ row ∈ opcodeMap, ∀ c, row.hits c = true → decode c = .ok (row.fields c) := by
  simp only [opcodeMap, List.forall_mem_cons, OpcodeRow.hits, beq_iff_eq]
  refine ⟨?nop, ?wadd, ?wsub, ?wmul, ?wand, ?wor, ?wxor, ?wshl, ?wshr, ?wmvpl, ?wmvph, ?wld, ?wst, ?mld, ?mst, ?madd, ?msub,
    ?mcmp, ?mcmpmag, ?minfo, List.forall_mem_nil _⟩ <;> intro c hit <;>
    have op := congrArg BitVec.toNat (eq_of_and_ones (opField_of_and hit)) <;>
    have rd := rdField_of_and hit <;> have rs1 := rs1Field_of_and hit <;> have rs2 := rs2Field_of_and hit <;>
    have low := low12Field_of_and hit
  case nop =>
    exact decode_of_encode (formatR_of_fields op (eq_of_and_ones rd) (eq_of_and_ones rs1) (eq_of_and_ones rs2)
      (eq_of_and_ones low)) rfl
  case wadd | wsub | wmul | wand | wor | wxor =>
    refine decode_of_encode (formatR_of_fields op rfl rfl rfl (eq_of_and_ones low)) ?_
    simp [fieldsR, Instr.wellFormed, isWReg_of_and rd, isWReg_of_and rs1, isWReg_of_and rs2]
  case wshl | wshr =>
    refine decode_of_encode (formatI_of_fields op) ?_
    simp [Instr.wellFormed, isWReg_of_and rd, isWReg_of_and rs1]
  case wmvpl | wmvph =>
    exact decode_of_encode (formatR_of_fields op rfl (eq_of_and_ones rs1) (eq_of_and_ones rs2)
      (eq_of_and_ones low)) (isWReg_of_and rd)
  case wld | wst =>
    exact decode_of_encode (formatM_of_fields op (eq_of_and_ones (mHighField_of_and hit))
      ((Bool.and_true _).symm.trans (sField_of_and hit)) (eq_of_and_ones (mMidField_of_and hit))) (isWReg_of_and rd)
  case mst =>
    exact decode_of_encode (formatM_of_fields op (eq_of_and_ones (mHighField_of_and hit))
      ((Bool.and_true _).symm.trans (sField_of_and hit)) (eq_of_and_ones (mMidField_of_and hit))) (isMReg_of_and rd)
  case mld =>
    exact decode_of_encode (formatM_of_fields op (eq_of_and_ones (mHighField_of_and hit)) rfl
      (eq_of_and_ones (mMidField_of_and hit))) (isMReg_of_and rd)
  case madd | msub =>
    refine decode_of_encode (formatR_of_fields op rfl rfl rfl (eq_of_and_ones low)) ?_
    simp [fieldsR, Instr.wellFormed, isMReg_of_and rd, isMReg_of_and rs1, isMReg_of_and rs2]
  case mcmp | mcmpmag =>
    refine decode_of_encode (formatR_of_fields op (eq_of_and_ones rd) rfl rfl (eq_of_and_ones low)) ?_
    simp [Instr.wellFormed, isMReg_of_and rs1, isMReg_of_and rs2]
  case minfo =>
    exact decode_of_encode (formatR_of_fields op (eq_of_and_ones rd) rfl (eq_of_and_ones rs2)
      (eq_of_and_ones low)) (isMReg_of_and rs1)

/-- Every word that decodes is matched by the row of its command. -/
theorem hits_of_decode {c : Word} {i : Instr} (h : decode c = .ok i) :
    ∃ row ∈ opcodeMap, row.hits c = true ∧ row.fields c = i := by
  obtain ⟨row, mem, -, hit, fields⟩ := row_of_command i (Machine.wellFormed_of_decode h)
  rw [encode_of_decode h] at hit fields
  exact ⟨row, mem, hit, fields⟩

/-- Two rows that match one word both name the one command it decodes to. -/
theorem mnemonic_eq_of_hits {c : Word} {r₁ r₂ : OpcodeRow} (m₁ : r₁ ∈ opcodeMap) (m₂ : r₂ ∈ opcodeMap)
    (h₁ : r₁.hits c = true) (h₂ : r₂.hits c = true) : r₁.mnemonic = r₂.mnemonic :=
  have same : r₁.fields c = r₂.fields c :=
    Except.ok.inj ((decode_of_hits r₁ m₁ c h₁).symm.trans (decode_of_hits r₂ m₂ c h₂))
  calc
    r₁.mnemonic = mnemonicOf (r₁.fields c) := (mnemonicOf_fields r₁ m₁ c).symm
    _ = mnemonicOf (r₂.fields c) := by rw [same]
    _ = r₂.mnemonic := mnemonicOf_fields r₂ m₂ c

/-- A word that matches no row is illegal (R102). -/
theorem decode_error_of_no_hit {c : Word} (unmatched : ∀ row ∈ opcodeMap, row.hits c = false) : ∃ e, decode c = .error e := by
  cases h : decode c with
  | error e => exact ⟨e, rfl⟩
  | ok i =>
    obtain ⟨row, mem, hit, -⟩ := hits_of_decode h
    simp [unmatched row mem] at hit

/-- Settles O4: a matching row is what the decoder answers, and a decoded word is the word of its command, which has its
row. -/
theorem decodeFollowsOpcodeMap : Obligations.DecodeFollowsOpcodeMap := by
  refine ⟨fun c i => ⟨hits_of_decode, ?_⟩, fun c r₁ m₁ r₂ m₂ => mnemonic_eq_of_hits m₁ m₂, fun c => decode_error_of_no_hit⟩
  rintro ⟨row, mem, hit, rfl⟩
  exact decode_of_hits row mem c hit

/-! ## Illegal words (R92, R102) -/

/-- Settles O5: the must-be-zero fields of its word are zero, so the word is illegal for its register index alone; its
execution is the model's choice of log entry 4. -/
theorem illFormedCommandIsIllegal : Obligations.IllFormedCommandIsIllegal := by
  intro i s h
  refine ⟨?_, s.takeFault .illegalCmd (encode i), Machine.exec_illegal h s, Machine.recorded_takeFault s .illegalCmd _,
    Machine.onlyFaultRecord_takeFault s _ _⟩
  rw [decode_encode]
  simp [accept, h]

/-- While the unit is not faulted, a word that does not decode takes the ILLEGAL_CMD entry (R102). -/
theorem runCommand_of_error {s : Machine.State} {c : Word} {e : Illegal} (hf : s.fault = false) (hd : decode c = .error e) :
    Machine.runCommand c s = .next (s.takeFault .illegalCmd c) := by
  simp [Machine.runCommand, hf, hd]

/-- Settles O8: by the opcode map the word does not decode, and the step is its command write. -/
theorem unmatchedWordRaisesIllegalCmd : Obligations.UnmatchedWordRaisesIllegalCmd := by
  intro s rest c hf unmatched
  obtain ⟨e, hd⟩ := decode_error_of_no_hit unmatched
  exact ⟨_, Machine.step_command.trans (runCommand_of_error hf hd), Machine.recorded_takeFault _ .illegalCmd c,
    Machine.onlyFaultRecord_takeFault _ _ c⟩

/-! ## The worked encodings (R107) -/

/-- Settles O1, the illegal words each with the bullet of R102 that rejects it. -/
theorem workedEncodingsDecode : Obligations.WorkedEncodingsDecode := by
  refine ⟨by decide, by decide, by decide, by decide, by decide, by decide, by decide, by decide, by decide, by decide,
    by decide, by decide, by decide, by decide, ?_⟩
  simp only [List.forall_mem_cons]
  exact ⟨⟨.unassignedOpcode, by decide⟩, ⟨.registerIndex, by decide⟩, ⟨.mustBeZero, by decide⟩, ⟨.registerIndex, by decide⟩,
    ⟨.mustBeZero, by decide⟩, ⟨.mustBeZero, by decide⟩, ⟨.mustBeZero, by decide⟩, ⟨.mustBeZero, by decide⟩,
    List.forall_mem_nil _⟩

end Sys2Proof

/-! PROOFS. The properties of `mp_normalize` (`40_mpint_compare.md` R120, R121): what the trimming loop leaves, the
digits and the length of the register it gives, and that a normalized register is known by its value. -/

namespace Sys2Proof.Machine

/-! ## The trimming loop -/

theorem trimmedLength_le (dp : Vector Digit 10) : ∀ n, trimmedLength dp n ≤ n
  | 0 => le_rfl
  | n + 1 => by
    rw [trimmedLength]
    split
    · exact (trimmedLength_le dp n).trans n.le_succ
    · exact le_rfl

/-- The loop stops at the empty register or below a digit that is not 0. -/
theorem trimmedLength_top (dp : Vector Digit 10) :
    ∀ n, trimmedLength dp n = 0 ∨ digitAt dp (trimmedLength dp n - 1) ≠ 0
  | 0 => .inl rfl
  | n + 1 => by
    rw [trimmedLength]
    split
    · exact trimmedLength_top dp n
    · next kept => exact .inr kept

/-- Only zero digits are trimmed, so the digit sum stays. -/
theorem digitSum_trimmedLength (dp : Vector Digit 10) : ∀ n, digitSum dp (trimmedLength dp n) = digitSum dp n
  | 0 => rfl
  | n + 1 => by
    rw [trimmedLength]
    split
    · next trimmed => rw [digitSum_trimmedLength dp n, digitSum, trimmed, Nat.zero_mul, Nat.add_zero]
    · rfl

/-- A digit sum depends on the digits below its length alone. -/
theorem digitSum_congr {a b : Vector Digit 10} : ∀ {n : Nat}, (∀ k < n, digitAt a k = digitAt b k) →
    digitSum a n = digitSum b n
  | 0, _ => rfl
  | n + 1, same => by
    rw [digitSum, digitSum, same n n.lt_succ_self, digitSum_congr fun k hk => same k (Nat.lt_succ_of_lt hk)]

/-! ## The fields of a normalized record -/

theorem mpNormalize_used (m : MPInt) : (mpNormalize m).used.val = trimmedLength m.dp m.used.val :=
  Nat.mod_eq_of_lt ((trimmedLength_le m.dp m.used.val).trans_lt m.used.isLt)

/-- `mp_normalize` keeps the digits below the new length and clears the others. -/
theorem digitAt_mpNormalize (m : MPInt) (k : Nat) :
    digitAt (mpNormalize m).dp k = if k < (mpNormalize m).used.val then digitAt m.dp k else 0 := by
  rw [mpNormalize_used]
  by_cases hk : k < 10
  · rw [mpNormalize, digitAt_digitsOf _ hk]
    split
    · exact Nat.mod_eq_of_lt (digitAt_lt m.dp k)
    · exact Nat.zero_mod _
  · have above : 10 ≤ k := Nat.le_of_not_lt hk
    rw [digitAt_above _ above, digitAt_above _ above, ite_self]

theorem digitAt_mpNormalize_below {m : MPInt} {k : Nat} (h : k < (mpNormalize m).used.val) :
    digitAt (mpNormalize m).dp k = digitAt m.dp k := by
  rw [digitAt_mpNormalize, if_pos h]

/-- Item (a) of R121. -/
theorem mag_mpNormalize (m : MPInt) : mag (mpNormalize m) = mag m := by
  calc
    mag (mpNormalize m) = digitSum m.dp (mpNormalize m).used.val := digitSum_congr fun _ => digitAt_mpNormalize_below
    _ = digitSum m.dp (trimmedLength m.dp m.used.val) := by rw [mpNormalize_used]
    _ = mag m := digitSum_trimmedLength m.dp m.used.val

theorem mpNormalize_sign (m : MPInt) :
    (mpNormalize m).sign = if (mpNormalize m).used.val = 0 then false else m.sign := by
  rw [mpNormalize_used]
  rfl

/-- Item (b) of R121: the three items of R27. -/
theorem normalized_mpNormalize (m : MPInt) : normalized (mpNormalize m) = true := by
  refine (normalized_iff _).2 ⟨or_iff_not_imp_left.2 fun nonempty => ?_, fun empty => ?_, fun k hk => ?_⟩
  · have pos : 0 < (mpNormalize m).used.val := Nat.pos_of_ne_zero fun e => nonempty (Fin.ext e)
    rw [digitAt_mpNormalize_below (Nat.sub_one_lt_of_lt pos)]
    rw [mpNormalize_used] at pos ⊢
    exact (trimmedLength_top m.dp m.used.val).resolve_left pos.ne'
  · rw [mpNormalize_sign, if_pos (Fin.val_eq_zero_iff.2 empty)]
  · rw [digitAt_mpNormalize, if_neg hk.not_gt]

/-- Item (d) of R121; on the result of `mp_normalize` it is item (c). -/
theorem mpNormalize_of_normalized {m : MPInt} (h : normalized m = true) : mpNormalize m = m :=
  mpNormalize_covering h le_rfl

/-- Item (e) of R121: the sign is lost only when the magnitude is 0. -/
theorem val_mpNormalize (m : MPInt) : val (mpNormalize m) = val m := by
  rw [val, val, mag_mpNormalize, mpNormalize_sign]
  split
  · next empty =>
    have zero : mag m = 0 := by rw [← mag_mpNormalize, mag, empty, digitSum]
    simp [zero]
  · rfl

/-! ## A normalized register is known by its value -/

/-- The sign of a normalized register is the sign of its value (R27). -/
theorem sign_eq_decide_val {m : MPInt} (h : normalized m = true) : m.sign = decide (val m < 0) := by
  cases hs : m.sign
  · simp [val_of_nonneg hs]
  · simp [val_lt_zero h hs]

/-- The loop of R122 answers EQ only on equal digits. -/
theorem digits_eq_of_compareDigits {a b : Vector Digit 10} :
    ∀ {n : Nat}, compareDigits a b n = .eq → ∀ k < n, digitAt a k = digitAt b k
  | n + 1, h, k, hk => by
    rw [compareDigits] at h
    split_ifs at h with greater less
    rcases Nat.lt_succ_iff_lt_or_eq.1 hk with below | rfl
    · exact digits_eq_of_compareDigits h k below
    · omega

/-- The magnitude comparison answers EQ only on equal lengths and equal digits below them (R122). -/
theorem fields_eq_of_mpCmpMag {a b : MPInt} (h : mpCmpMag a b = .eq) :
    a.used = b.used ∧ ∀ k < a.used.val, digitAt a.dp k = digitAt b.dp k := by
  rw [mpCmpMag] at h
  split_ifs at h with longer shorter
  exact ⟨le_antisymm (le_of_not_gt longer) (le_of_not_gt shorter), digits_eq_of_compareDigits h⟩

/-- Item (f) of R121: the magnitudes compare equal, the digits above the length are 0, and the sign follows the value. -/
theorem eq_of_normalized_of_val_eq {a b : MPInt} (ha : normalized a = true) (hb : normalized b = true)
    (h : val a = val b) : a = b := by
  obtain ⟨-, -, aboveA⟩ := (normalized_iff a).1 ha
  obtain ⟨-, -, aboveB⟩ := (normalized_iff b).1 hb
  have sameSign : a.sign = b.sign := by rw [sign_eq_decide_val ha, sign_eq_decide_val hb, h]
  have sameMag : mag a = mag b := by rw [← val_natAbs, ← val_natAbs, h]
  obtain ⟨sameUsed, below⟩ := fields_eq_of_mpCmpMag ((mpCmpMag_eq_cmp ha hb).trans ((cmp_eq_eq_iff _ _).2 sameMag))
  have sameDigits : a.dp = b.dp := digits_ext fun k _ => by
    rcases Nat.lt_or_ge k a.used.val with inside | outside
    · exact below k inside
    · rw [aboveA k outside, aboveB k (sameUsed ▸ outside)]
  show MPInt.mk a.sign a.used a.dp = b
  rw [sameSign, sameUsed, sameDigits]

/-- Settles O50: idempotence is item (d) on a register that item (b) shows normalized. -/
theorem normalizeProperties : Obligations.NormalizeProperties := by
  refine ⟨fun m => ⟨mag_mpNormalize m, normalized_mpNormalize m, mpNormalize_of_normalized (normalized_mpNormalize m),
    mpNormalize_of_normalized, val_mpNormalize m, fun zero => ?_⟩, fun _ _ => eq_of_normalized_of_val_eq⟩
  have zeroVal : val (mpNormalize m) = 0 := by rw [← Int.natAbs_eq_zero, val_natAbs, mag_mpNormalize, zero]
  rw [sign_eq_decide_val (normalized_mpNormalize m), zeroVal]
  rfl

end Sys2Proof.Machine

/-! PROOFS. The comparator commands (`40_mpint_compare.md` R124 to R126): the word, the field of STATUS that each writes,
and the frame. -/

namespace Sys2Proof.Machine

/-! ## The comparisons (R124, R125) -/

theorem wellFormed_mcmp (a b : Fin 4) : Instr.wellFormed (.mcmp (mField a) (mField b)) = true := by
  simp [Instr.wellFormed]

theorem wellFormed_mcmpmag (a b : Fin 4) : Instr.wellFormed (.mcmpmag (mField a) (mField b)) = true := by
  simp [Instr.wellFormed]

/-- The code of the order of two integers, by cases (R35). -/
theorem cmpCode_cmp {α : Type} [LinearOrder α] (x y : α) :
    cmpCode (cmp x y) = if x = y then 0#2 else if x < y then 1#2 else 2#2 := by
  rw [← ite_order_eq_cmp, apply_ite cmpCode, apply_ite cmpCode]
  rfl

theorem statusWord_setCmp (r : Ordering) (s : State) : (statusWord (setCmp r s)).extractLsb' 1 2 = cmpCode r :=
  statusWord_cmp (setCmp r s)

/-- Recording a comparison changes STATUS.CMP alone. -/
theorem setCmp_frame (r : Ordering) (s : State) :
    SameWords s (setCmp r s) ∧ SameProduct s (setCmp r s) ∧ SameMps s (setCmp r s) ∧ SameBytes s (setCmp r s) ∧
      SameInfo s (setCmp r s) ∧ SameFaultRecord s (setCmp r s) ∧ SameHost s (setCmp r s) :=
  ⟨sameWords_of_w rfl, rfl, sameMps_of_m rfl, sameBytes_of_sb rfl, ⟨rfl, rfl⟩, ⟨rfl, rfl, rfl, rfl⟩, rfl, rfl⟩

theorem exec_mcmp (a b : Fin 4) (s : State) :
    exec (.mcmp (mField a) (mField b)) s = .next (setCmp (mpCmp (s.mpAt a) (s.mpAt b)) s) := by
  rw [exec, execMcmp, whenLegal_legal (wellFormed_mcmp a b), mIndex_mField, mIndex_mField]

theorem exec_mcmpmag (a b : Fin 4) (s : State) :
    exec (.mcmpmag (mField a) (mField b)) s = .next (setCmp (mpCmpMag (s.mpAt a) (s.mpAt b)) s) := by
  rw [exec, execMcmpmag, whenLegal_legal (wellFormed_mcmpmag a b), mIndex_mField, mIndex_mField]

/-- Settles O41. -/
theorem mcmpWritesSignedOrder : Obligations.McmpWritesSignedOrder := by
  refine fun a b s => ⟨decodeOfEncodeGivesCommand (.mcmp (mField a) (mField b)) (wellFormed_mcmp a b), _,
    exec_mcmp a b s, rfl, statusWord_setCmp _ s, fun ha hb => ?_, setCmp_frame _ s⟩
  rw [statusWord_setCmp, mpCmp_eq_cmp ha hb, cmpCode_cmp]

/-- Settles O42. -/
theorem mcmpmagWritesMagnitudeOrder : Obligations.McmpmagWritesMagnitudeOrder := by
  refine fun a b s => ⟨decodeOfEncodeGivesCommand (.mcmpmag (mField a) (mField b)) (wellFormed_mcmpmag a b), _,
    exec_mcmpmag a b s, rfl, statusWord_setCmp _ s, fun ha hb => ?_, setCmp_frame _ s⟩
  rw [statusWord_setCmp, mpCmpMag_eq_cmp ha hb, cmpCode_cmp]

/-! ## The report of sign and length (R126) -/

theorem wellFormed_minfo (a : Fin 4) : Instr.wellFormed (.minfo (mField a)) = true := by
  simp [Instr.wellFormed]

/-- MUSED is the length, which its eight bits hold. -/
theorem usedField_toNat (used : Fin 11) : (usedField used).toNat = used.val :=
  Nat.mod_eq_of_lt (used.isLt.trans (by decide))

/-- The two must-be-zero fields at the end of the word of `MINFO`, as one. -/
theorem encode_minfo : ∀ a : Fin 4, encode (.minfo (mField a)) = 0x34#8 ++ 0#4 ++ mField a ++ 0#16 := by decide

theorem exec_minfo (a : Fin 4) (s : State) :
    exec (.minfo (mField a)) s =
      .next { s with msign := (s.mpAt a).sign, mused := usedField (s.mpAt a).used } := by
  rw [exec, execMinfo, whenLegal_legal (wellFormed_minfo a), mIndex_mField]

/-- Settles O43. -/
theorem minfoReportsSignAndLength : Obligations.MinfoReportsSignAndLength := by
  intro a s
  have length_eq := usedField_toNat (s.mpAt a).used
  refine ⟨?_, _, exec_minfo a s, rfl, length_eq, length_eq.trans_le (Nat.le_of_lt_succ (s.mpAt a).used.isLt), rfl,
    sameWords_of_w rfl, rfl, sameMps_of_m rfl, sameBytes_of_sb rfl, ⟨rfl, rfl, rfl, rfl⟩, rfl, rfl⟩
  rw [← encode_minfo]
  exact decodeOfEncodeGivesCommand _ (wellFormed_minfo a)

end Sys2Proof.Machine

/-! PROOFS. The digit-level signed add and subtract (`41_mpint_addsub.md` R143 to R145): the carry and the borrow loop by
induction over the digit positions, and the sum and the difference they make. -/

namespace Sys2Proof.Machine

/-! ## Registers at full length -/

theorem two_pow_digit_succ (n : Nat) : 2 ^ (28 * (n + 1)) = 2 ^ 28 * 2 ^ (28 * n) := by
  rw [Nat.mul_succ, Nat.pow_add, Nat.mul_comm]

/-- The digits above the length of a normalized register are 0, so the sum of all ten is its magnitude. -/
theorem digitSum_capacity {m : MPInt} (h : normalized m = true) : digitSum m.dp 10 = mag m :=
  calc
    digitSum m.dp 10 = mag (mpNormalize { m with used := 10 }) := (mag_mpNormalize { m with used := 10 }).symm
    _ = mag m := congrArg mag (mpNormalize_covering h (Fin.le_last _))

/-- `mp_normalize` gives the register of the value, for every raw record. -/
theorem mpNormalize_eq_mpFromInt (m : MPInt) : mpNormalize m = mpFromInt (val m) := by
  have fits : (val m).natAbs < 2 ^ 280 := (val_natAbs m).trans_lt (mag_lt m)
  refine eq_of_normalized_of_val_eq (normalized_mpNormalize m) (normalized_mpFromInt fits) ?_
  rw [val_mpNormalize, val_mpFromInt fits]

/-- The register of a normalized register's value is that register (R121, R140). -/
theorem mpFromInt_val {m : MPInt} (h : normalized m = true) : mpFromInt (val m) = m := by
  rw [← mpNormalize_eq_mpFromInt, mpNormalize_of_normalized h]

theorem val_eq_signedMagnitude (m : MPInt) : val m = signedMagnitude m.sign (mag m) := rfl

/-- The register of ten digits with a sign. -/
theorem mpNormalize_full (sign : Bool) (dp : Vector Digit 10) :
    mpNormalize { sign := sign, used := 10, dp := dp } = mpFromInt (signedMagnitude sign (digitSum dp 10)) :=
  mpNormalize_eq_mpFromInt _

/-! ## The carry loop (R144) -/

theorem addCarry_le_one (a b : Vector Digit 10) : ∀ n, addCarry a b n ≤ 1
  | 0 => Nat.zero_le 1
  | n + 1 => by
    have carry := addCarry_le_one a b n
    have digitA := digitAt_lt a n
    have digitB := digitAt_lt b n
    simp only [addCarry, Config.digitBits]
    omega

theorem digitAt_sAdd (a b : MPInt) {k : Nat} (hk : k < 10) :
    digitAt (sAdd a b).1 k = (digitAt a.dp k + digitAt b.dp k + addCarry a.dp b.dp k) % 2 ^ 28 := by
  rw [sAdd, digitAt_digitsOf _ hk, Nat.mod_mod]

/-- The digits below `n` and the carry into position `n` make the sum of the operands' digits below `n`. -/
theorem digitSum_sAdd (a b : MPInt) : ∀ {n : Nat}, n ≤ 10 →
    digitSum (sAdd a b).1 n + addCarry a.dp b.dp n * 2 ^ (28 * n) = digitSum a.dp n + digitSum b.dp n
  | 0, _ => rfl
  | n + 1, h => by
    have below := digitSum_sAdd a b (n := n) (by omega)
    have position := Nat.mod_add_div (digitAt a.dp n + digitAt b.dp n + addCarry a.dp b.dp n) (2 ^ 28)
    simp only [digitSum, digitAt_sAdd a b h, addCarry, Config.digitBits, two_pow_digit_succ]
    linear_combination below + 2 ^ (28 * n) * position

/-! ## The borrow loop (R145) -/

theorem subBorrow_le_one (a b : Vector Digit 10) : ∀ n, subBorrow a b n ≤ 1
  | 0 => Nat.zero_le 1
  | n + 1 => by
    rw [subBorrow]
    split <;> decide

/-- A digit of the difference: what a borrow out of its position adds is 2^28. -/
theorem digitAt_sSub (a b : MPInt) {k : Nat} (hk : k < 10) :
    (digitAt (sSub a b) k : Int) =
      digitAt a.dp k - digitAt b.dp k - subBorrow a.dp b.dp k + subBorrow a.dp b.dp (k + 1) * 2 ^ 28 := by
  have borrow := subBorrow_le_one a.dp b.dp k
  have digitA := digitAt_lt a.dp k
  have digitB := digitAt_lt b.dp k
  simp only [sSub, digitAt_digitsOf _ hk, subBorrow, Config.digitBits]
  split <;> omega

/-- The digits below `n` make the difference of the operands' digits below `n`, up to the borrow out of them. -/
theorem digitSum_sSub (a b : MPInt) : ∀ {n : Nat}, n ≤ 10 →
    (digitSum (sSub a b) n : Int) = digitSum a.dp n - digitSum b.dp n + subBorrow a.dp b.dp n * 2 ^ (28 * n)
  | 0, _ => rfl
  | n + 1, h => by
    have below := digitSum_sSub a b (n := n) (by omega)
    have shift : (2 : Int) ^ (28 * (n + 1)) = 2 ^ 28 * 2 ^ (28 * n) := by exact_mod_cast two_pow_digit_succ n
    simp only [digitSum, Nat.cast_add, Nat.cast_mul, Nat.cast_pow, Nat.cast_ofNat, digitAt_sSub a b h, Config.digitBits,
      shift]
    linear_combination below

/-- With the greater magnitude first there is no borrow out of the top digit. -/
theorem digitSum_sSub_capacity {a b : MPInt} (ha : normalized a = true) (hb : normalized b = true) (le : mag b ≤ mag a) :
    digitSum (sSub a b) 10 = mag a - mag b := by
  have total := digitSum_sSub a b (n := 10) le_rfl
  have fits := digitSum_lt (sSub a b) 10
  rw [digitSum_capacity ha, digitSum_capacity hb] at total
  rcases Nat.le_one_iff_eq_zero_or_eq_one.1 (subBorrow_le_one a.dp b.dp 10) with noBorrow | borrow
  · rw [noBorrow] at total
    omega
  · rw [borrow] at total
    omega

/-! ## The signed add (R143) -/

theorem signedMagnitude_add (sign : Bool) (m n : Nat) :
    signedMagnitude sign m + signedMagnitude sign n = signedMagnitude sign (m + n) := by
  cases sign
  case false => exact (Nat.cast_add m n).symm
  case true =>
    show -(m : Int) + -(n : Int) = -((m + n : Nat) : Int)
    omega

/-- With unlike signs the greater magnitude gives the sum its sign. -/
theorem signedMagnitude_sub {sign : Bool} {m n : Nat} (le : n ≤ m) :
    signedMagnitude sign m + signedMagnitude (!sign) n = signedMagnitude sign (m - n) := by
  cases sign
  case false =>
    show (m : Int) + -(n : Int) = ((m - n : Nat) : Int)
    omega
  case true =>
    show -(m : Int) + (n : Int) = -((m - n : Nat) : Int)
    omega

theorem val_add_of_unlike_signs {a b : MPInt} (unlike : b.sign = !a.sign) (le : mag b ≤ mag a) :
    val a + val b = signedMagnitude a.sign (mag a - mag b) := by
  rw [val_eq_signedMagnitude, val_eq_signedMagnitude, unlike, signedMagnitude_sub le]

theorem natAbs_add_lt_of_unlike_signs {a b : MPInt} (unlike : b.sign = !a.sign) : (val a + val b).natAbs < 2 ^ 280 := by
  rcases Nat.le_total (mag b) (mag a) with le | le
  · rw [val_add_of_unlike_signs unlike le, signedMagnitude_natAbs]
    exact (Nat.sub_le _ _).trans_lt (mag_lt a)
  · rw [add_comm, val_add_of_unlike_signs (by simp [unlike]) le, signedMagnitude_natAbs]
    exact (Nat.sub_le _ _).trans_lt (mag_lt b)

section
variable {a b : MPInt} (ha : normalized a = true) (hb : normalized b = true)
include ha hb

/-- Like signs: the carry out of the top digit tells whether the sum fits. -/
theorem mpAddSigned_of_like_signs (like : a.sign = b.sign) :
    mpAddSigned a b =
      if (val a + val b).natAbs < 2 ^ 280 then some (mpFromInt (val a + val b)) else none := by
  have sum_eq : val a + val b = signedMagnitude a.sign (mag a + mag b) := by
    rw [val_eq_signedMagnitude, val_eq_signedMagnitude, ← like, signedMagnitude_add]
  have total := digitSum_sAdd a b (n := 10) le_rfl
  have fits := digitSum_lt (sAdd a b).1 10
  have carryOut : (sAdd a b).2 = addCarry a.dp b.dp 10 := rfl
  rw [digitSum_capacity ha, digitSum_capacity hb] at total
  rw [mpAddSigned, if_pos like, carryOut, mpNormalize_full, sum_eq, signedMagnitude_natAbs]
  rcases Nat.le_one_iff_eq_zero_or_eq_one.1 (addCarry_le_one a.dp b.dp 10) with noCarry | carry
  · rw [noCarry, Nat.zero_mul, Nat.add_zero] at total
    rw [if_neg (by omega), ← total, if_pos fits]
  · rw [carry, Nat.one_mul] at total
    rw [if_pos carry, if_neg (by omega)]

/-- Unlike signs with the greater magnitude first. -/
theorem mpNormalize_sSub (unlike : b.sign = !a.sign) (le : mag b ≤ mag a) :
    mpNormalize { sign := a.sign, used := 10, dp := sSub a b } = mpFromInt (val a + val b) := by
  rw [mpNormalize_full, digitSum_sSub_capacity ha hb le, val_add_of_unlike_signs unlike le]

/-- Unlike signs: the sum always fits. -/
theorem mpAddSigned_of_unlike_signs (unlike : b.sign = !a.sign) :
    mpAddSigned a b = some (mpFromInt (val a + val b)) := by
  have differ : a.sign ≠ b.sign := by simp [unlike]
  simp only [mpAddSigned, if_neg differ, mpCmpMag_eq_cmp ha hb, cmp_eq_lt_iff]
  split
  · next less => rw [mpNormalize_sSub hb ha (by simp [unlike]) less.le, add_comm]
  · next notLess => rw [mpNormalize_sSub ha hb unlike (Nat.le_of_not_lt notLess)]

end

/-- The digit-level add is the integer rule of R141. -/
theorem mpAddSigned_eq_ite {a b : MPInt} (ha : normalized a = true) (hb : normalized b = true) :
    mpAddSigned a b =
      if (val a + val b).natAbs < 2 ^ 280 then some (mpFromInt (val a + val b)) else none := by
  by_cases like : a.sign = b.sign
  · exact mpAddSigned_of_like_signs ha hb like
  · have unlike : b.sign = !a.sign := Bool.eq_not.2 (Ne.symm like)
    rw [if_pos (natAbs_add_lt_of_unlike_signs unlike), mpAddSigned_of_unlike_signs ha hb unlike]

/-! ## Negation (R143) -/

theorem val_mpNeg (b : MPInt) : val (mpNeg b) = -val b := by
  rw [mpNeg]
  split
  · next empty =>
    have zero : mag b = 0 := by rw [mag, empty]; rfl
    simp [val, zero]
  · cases sign : b.sign <;> simp [val, mag, sign]

theorem normalized_mpNeg {b : MPInt} (hb : normalized b = true) : normalized (mpNeg b) = true := by
  rw [mpNeg]
  split
  · exact hb
  · next nonempty =>
    obtain ⟨top, -, above⟩ := (normalized_iff b).1 hb
    exact (normalized_iff _).2 ⟨top, fun empty => absurd empty nonempty, above⟩

/-- Settles O49: the difference is the sum with the negated second operand. -/
theorem digitLevelAddSubAgree : Obligations.DigitLevelAddSubAgree := by
  intro a b ha hb
  have difference := mpAddSigned_eq_ite ha (normalized_mpNeg hb)
  rw [val_mpNeg, ← sub_eq_add_neg] at difference
  rw [difference, mpAddSigned_eq_ite ha hb]
  exact ⟨fun fits => if_pos fits, fun large => if_neg large.not_gt, fun fits => if_pos fits,
    fun large => if_neg large.not_gt⟩

end Sys2Proof.Machine

/-! PROOFS. The commands `MADD` and `MSUB` (`41_mpint_addsub.md` R141, R142, R147): the exact integer or the MP_CAPACITY
fault, and the laws of a run in which no command faults. -/

namespace Sys2Proof.Machine

/-! ## Writing an exact integer (R141, R142) -/

theorem writeInteger_fits (i : Instr) (d : Fin 4) {v : Int} (s : State) (fits : v.natAbs < 2 ^ 280) :
    writeInteger i (mField d) v s = .next (s.setMp d (mpFromInt v)) := by
  rcases writeInteger_cases i (mField d) v s with ⟨-, written⟩ | ⟨large, -⟩
  · rwa [mIndex_mField] at written
  · exact absurd fits large.not_gt

/-- Below the capacity the integer's register is written, normalized, and nothing else changes. -/
theorem writeInteger_exact (i : Instr) (d : Fin 4) {v : Int} (s : State) (fits : v.natAbs < 2 ^ 280) :
    ∃ t, writeInteger i (mField d) v s = .next t ∧ val (t.mpAt d) = v ∧ normalized (t.mpAt d) = true ∧ OnlyMp d s t := by
  refine ⟨_, writeInteger_fits i d s fits, ?_, ?_, onlyMp_setMp s d _⟩ <;> rw [mpAt_setMp_self]
  · exact val_mpFromInt fits
  · exact normalized_mpFromInt fits

/-- From the capacity on the command takes MP_CAPACITY(280) with its own word, and nothing else changes. -/
theorem writeInteger_capacity (i : Instr) (d : RegField) {v : Int} (s : State) (large : 2 ^ 280 ≤ v.natAbs) :
    ∃ t, writeInteger i d v s = .next t ∧ Recorded .mpCapacity 280 (encode i) t ∧ OnlyFaultRecord s t := by
  rcases writeInteger_cases i d v s with ⟨fits, -⟩ | ⟨-, raised⟩
  · exact absurd fits large.not_gt
  · exact ⟨_, raised, recorded_takeFault s .mpCapacity _, onlyFaultRecord_takeFault s .mpCapacity _⟩

/-- Without a fault afterwards the integer fits, and its register is all that is written. -/
theorem writeInteger_unfaulted {i : Instr} {d : Fin 4} {v : Int} {s t : State}
    (h : writeInteger i (mField d) v s = .next t) (ok : t.fault = false) :
    t = s.setMp d (mpFromInt v) ∧ v.natAbs < 2 ^ 280 := by
  rcases writeInteger_cases i (mField d) v s with ⟨fits, written⟩ | ⟨-, raised⟩
  · rw [written, mIndex_mField] at h
    cases h
    exact ⟨rfl, fits⟩
  · rw [raised] at h
    cases h
    cases ok

/-! ## The two commands -/

theorem wellFormed_madd (d a b : Fin 4) : Instr.wellFormed (.madd (mField d) (mField a) (mField b)) = true := by
  simp [Instr.wellFormed]

theorem wellFormed_msub (d a b : Fin 4) : Instr.wellFormed (.msub (mField d) (mField a) (mField b)) = true := by
  simp [Instr.wellFormed]

theorem exec_madd (d a b : Fin 4) (s : State) :
    exec (.madd (mField d) (mField a) (mField b)) s =
      writeInteger (.madd (mField d) (mField a) (mField b)) (mField d) (val (s.mpAt a) + val (s.mpAt b)) s := by
  rw [exec, execMadd, whenLegal_legal (wellFormed_madd d a b), mIndex_mField, mIndex_mField]

theorem exec_msub (d a b : Fin 4) (s : State) :
    exec (.msub (mField d) (mField a) (mField b)) s =
      writeInteger (.msub (mField d) (mField a) (mField b)) (mField d) (val (s.mpAt a) - val (s.mpAt b)) s := by
  rw [exec, execMsub, whenLegal_legal (wellFormed_msub d a b), mIndex_mField, mIndex_mField]

/-- Settles O39. -/
theorem maddWritesExactSumOrFaults : Obligations.MaddWritesExactSumOrFaults := by
  intro d a b s
  rw [exec_madd]
  exact ⟨decode_encode_madd (wellFormed_madd d a b), writeInteger_exact _ d s, writeInteger_capacity _ _ s⟩

/-- Settles O40. -/
theorem msubWritesExactDifferenceOrFaults : Obligations.MsubWritesExactDifferenceOrFaults := by
  intro d a b s
  rw [exec_msub]
  exact ⟨decode_encode_msub (wellFormed_msub d a b), writeInteger_exact _ d s, writeInteger_capacity _ _ s⟩

/-! ## The laws of a run without a fault (R147) -/

/-- No command clears the fault. -/
theorem exec_unfaulted {i : Instr} {s t : State} (h : exec i s = .next t) (ok : t.fault = false) : s.fault = false := by
  cases exec_effect h
  case slot => rwa [setSlot_fault] at ok
  case fault => cases ok
  all_goals exact ok

/-- Two commands that end without a fault had none in between. -/
theorem thenDo_unfaulted {r : Result} {i : Instr} {u : State} (h : thenDo r (exec i) = .next u) (ok : u.fault = false) :
    ∃ t, r = .next t ∧ t.fault = false ∧ exec i t = .next u := by
  cases r with
  | next t => exact ⟨t, rfl, exec_unfaulted h ok, h⟩
  | fault e => cases h
  | refused e => cases h

/-- A second write to the same register is all that is left of the two. -/
theorem setMp_setMp (s : State) (d : Fin 4) (x y : MPInt) : (s.setMp d x).setMp d y = s.setMp d y := by
  simp [State.setMp]

section
variable {d a b : Fin 4} {s t : State} (ok : t.fault = false)
include ok

theorem exec_madd_unfaulted (h : exec (.madd (mField d) (mField a) (mField b)) s = .next t) :
    t = s.setMp d (mpFromInt (val (s.mpAt a) + val (s.mpAt b))) ∧ (val (s.mpAt a) + val (s.mpAt b)).natAbs < 2 ^ 280 :=
  writeInteger_unfaulted ((exec_madd d a b s).symm.trans h) ok

theorem exec_msub_unfaulted (h : exec (.msub (mField d) (mField a) (mField b)) s = .next t) :
    t = s.setMp d (mpFromInt (val (s.mpAt a) - val (s.mpAt b))) ∧ (val (s.mpAt a) - val (s.mpAt b)).natAbs < 2 ^ 280 :=
  writeInteger_unfaulted ((exec_msub d a b s).symm.trans h) ok

variable {v : Int} (fits : v.natAbs < 2 ^ 280)
include fits

/-! The second command of an expression: its destination holds the integer that the first one wrote. -/

theorem exec_madd_after_left (ne : b ≠ d)
    (h : exec (.madd (mField d) (mField d) (mField b)) (s.setMp d (mpFromInt v)) = .next t) :
    t = s.setMp d (mpFromInt (v + val (s.mpAt b))) := by
  obtain ⟨rfl, -⟩ := exec_madd_unfaulted ok h
  rw [setMp_setMp, mpAt_setMp_self, mpAt_setMp_ne s _ ne, val_mpFromInt fits]

theorem exec_madd_after_right (ne : a ≠ d)
    (h : exec (.madd (mField d) (mField a) (mField d)) (s.setMp d (mpFromInt v)) = .next t) :
    t = s.setMp d (mpFromInt (val (s.mpAt a) + v)) := by
  obtain ⟨rfl, -⟩ := exec_madd_unfaulted ok h
  rw [setMp_setMp, mpAt_setMp_self, mpAt_setMp_ne s _ ne, val_mpFromInt fits]

theorem exec_msub_after_left (ne : b ≠ d)
    (h : exec (.msub (mField d) (mField d) (mField b)) (s.setMp d (mpFromInt v)) = .next t) :
    t = s.setMp d (mpFromInt (v - val (s.mpAt b))) := by
  obtain ⟨rfl, -⟩ := exec_msub_unfaulted ok h
  rw [setMp_setMp, mpAt_setMp_self, mpAt_setMp_ne s _ ne, val_mpFromInt fits]

end

/-- Settles O59: each side of a law writes the register of one integer, and the integers are equal. -/
theorem mpintAddSubLaws : Obligations.MpintAddSubLaws := by
  intro d a b c z s inv unfaulted
  obtain ⟨mps, -⟩ := (inv_iff s).1 inv
  refine ⟨?commutative, ?associative, ?negation, ?cancellation, ?selfDifference⟩
  case commutative =>
    intro t run ok
    obtain ⟨rfl, fits⟩ := exec_madd_unfaulted ok run
    rw [exec_madd, add_comm (val (s.mpAt b)), writeInteger_fits _ d s fits]
  case associative =>
    intro neA neC t u run okT run' okU
    obtain ⟨t₁, first, ok₁, second⟩ := thenDo_unfaulted run okT
    obtain ⟨u₁, first', ok₁', second'⟩ := thenDo_unfaulted run' okU
    obtain ⟨rfl, fits⟩ := exec_madd_unfaulted ok₁ first
    obtain ⟨rfl, fits'⟩ := exec_madd_unfaulted ok₁' first'
    rw [exec_madd_after_left okT fits neC.symm second, exec_madd_after_right okU fits' neA.symm second', add_assoc]
  case negation =>
    intro neA zero t u run okT run' okU
    obtain ⟨u₁, first', ok₁', second'⟩ := thenDo_unfaulted run' okU
    obtain ⟨rfl, -⟩ := exec_msub_unfaulted okT run
    obtain ⟨rfl, fits'⟩ := exec_msub_unfaulted ok₁' first'
    rw [exec_madd_after_right okU fits' neA.symm second', zero, zero_sub, sub_eq_add_neg]
  case cancellation =>
    intro neB t run ok
    obtain ⟨t₁, first, ok₁, second⟩ := thenDo_unfaulted run ok
    obtain ⟨rfl, fits⟩ := exec_madd_unfaulted ok₁ first
    rw [exec_msub_after_left ok fits neB.symm second, mpAt_setMp_self, add_sub_cancel_right, mpFromInt_val (mps a)]
  case selfDifference =>
    obtain ⟨-, zero⟩ := fromIntIsTheNormalizedRegister
    rw [exec_msub, sub_self]
    refine ⟨_, writeInteger_fits _ d s (Nat.two_pow_pos 280), ?_, unfaulted⟩
    rw [mpAt_setMp_self, zero]

end Sys2Proof.Machine

/-! PROOFS. Word256 addition and subtraction limb by limb (`42_word256_addsub.md` R162 to R164): the carry and the borrow
loop by their invariants over the limbs done so far, and the bitwise identities from the top bits. -/

namespace Sys2Proof.Machine

/-! ## The integer of the limbs (R21) -/

/-- The integer of limbs 0 to `n - 1`. -/
def limbSum (f : Nat → Limb) : Nat → Nat
  | 0 => 0
  | n + 1 => limbSum f n + (f n).toNat * 2 ^ (64 * n)

theorem two_pow_limb_succ (n : Nat) : 2 ^ (64 * (n + 1)) = 2 ^ 64 * 2 ^ (64 * n) := by
  rw [Nat.mul_succ, Nat.pow_add, Nat.mul_comm]

theorem toNat_limb (v : Value256) (j : Nat) : (limb v j).toNat = v.toNat / 2 ^ (64 * j) % 2 ^ 64 := by
  rw [limb, BitVec.extractLsb'_toNat, Nat.shiftRight_eq_div_pow]

/-- The limbs of a word below position `n` make its value modulo `2^(64*n)`. -/
theorem limbSum_limb (v : Value256) : ∀ n, limbSum (limb v) n = v.toNat % 2 ^ (64 * n)
  | 0 => (Nat.mod_one _).symm
  | n + 1 => by
    rw [limbSum, limbSum_limb v n, toNat_limb, two_pow_limb_succ, Nat.mul_comm (2 ^ 64), Nat.mod_mul, Nat.mul_comm (2 ^ _)]

theorem limbSum_limb_four (v : Value256) : limbSum (limb v) 4 = v.toNat :=
  (limbSum_limb v 4).trans (Nat.mod_eq_of_lt v.isLt)

theorem toNat_append_eq_add {m n : Nat} (x : BitVec m) (y : BitVec n) : (x ++ y).toNat = y.toNat + x.toNat * 2 ^ n := by
  rw [BitVec.toNat_append, ← Nat.shiftLeft_add_eq_or_of_lt y.isLt, Nat.shiftLeft_eq, Nat.add_comm]

theorem toNat_ofLimbs (f : Nat → Limb) : (ofLimbs f).toNat = limbSum f 4 := by
  simp only [ofLimbs, toNat_append_eq_add, limbSum]
  omega

/-! ## The carry loop (R162) -/

section
variable (a b : Value256)

theorem limbCarry_le_one : ∀ j, limbCarry a b j ≤ 1
  | 0 => Nat.zero_le 1
  | j + 1 => by
    have carry := limbCarry_le_one j
    have limbA := (limb a j).isLt
    have limbB := (limb b j).isLt
    rw [limbCarry]
    omega

/-- `result.limb[j]` of R162. -/
def sumLimb (j : Nat) : Limb :=
  BitVec.ofNat 64 (((limb a j).toNat + (limb b j).toNat + limbCarry a b j) % 2 ^ 64)

theorem addByLimbs_eq_ofLimbs : addByLimbs a b = ofLimbs (sumLimb a b) := rfl

theorem toNat_sumLimb (j : Nat) :
    (sumLimb a b j).toNat + limbCarry a b (j + 1) * 2 ^ 64 = (limb a j).toNat + (limb b j).toNat + limbCarry a b j := by
  rw [sumLimb, BitVec.toNat_ofNat, Nat.mod_mod, limbCarry, Nat.mod_add_div']

/-- The limbs below `n` and the carry into limb `n` make the sum of the operands' limbs below `n`. -/
theorem limbSum_sumLimb : ∀ n,
    limbSum (sumLimb a b) n + limbCarry a b n * 2 ^ (64 * n) = limbSum (limb a) n + limbSum (limb b) n
  | 0 => rfl
  | n + 1 => by
    have below := limbSum_sumLimb n
    have position := toNat_sumLimb a b n
    rw [limbSum, limbSum, limbSum, two_pow_limb_succ]
    linear_combination below + 2 ^ (64 * n) * position

/-- The carry out of the top limb is what addition modulo 2^256 drops. -/
theorem addByLimbs_eq_wordAdd : addByLimbs a b = wordAdd a b := by
  apply BitVec.eq_of_toNat_eq
  have total := limbSum_sumLimb a b 4
  rw [← toNat_ofLimbs, ← addByLimbs_eq_ofLimbs, limbSum_limb_four, limbSum_limb_four] at total
  have fits := (addByLimbs a b).isLt
  rw [wordAdd, BitVec.toNat_ofNat]
  omega

/-! ## The borrow loop (R163) -/

theorem limbBorrow_le_one : ∀ j, limbBorrow a b j ≤ 1
  | 0 => Nat.zero_le 1
  | j + 1 => by
    rw [limbBorrow]
    split <;> decide

theorem limbDifference_bounds (j : Nat) :
    -(2 ^ 64) ≤ limbDifference a b j (limbBorrow a b j) ∧ limbDifference a b j (limbBorrow a b j) ≤ 2 ^ 64 - 1 := by
  have borrow := limbBorrow_le_one a b j
  have limbA := (limb a j).isLt
  have limbB := (limb b j).isLt
  rw [limbDifference]
  omega

/-- `result.limb[j]` of R163. -/
def differenceLimb (j : Nat) : Limb :=
  BitVec.ofInt 64 (if limbDifference a b j (limbBorrow a b j) < 0 then limbDifference a b j (limbBorrow a b j) + 2 ^ 64
    else limbDifference a b j (limbBorrow a b j))

theorem subByLimbs_eq_ofLimbs : subByLimbs a b = ofLimbs (differenceLimb a b) := rfl

/-- A limb of the difference: what a borrow out of its position adds is 2^64. -/
theorem toNat_differenceLimb (j : Nat) :
    ((differenceLimb a b j).toNat : Int) =
      (limb a j).toNat - (limb b j).toNat - limbBorrow a b j + limbBorrow a b (j + 1) * 2 ^ 64 := by
  have bounds := limbDifference_bounds a b j
  rw [differenceLimb, BitVec.toNat_ofInt, limbBorrow, ← limbDifference]
  split <;> omega

/-- The limbs below `n` make the difference of the operands' limbs below `n`, up to the borrow out of them. -/
theorem limbSum_differenceLimb : ∀ n,
    (limbSum (differenceLimb a b) n : Int) =
      limbSum (limb a) n - limbSum (limb b) n + limbBorrow a b n * 2 ^ (64 * n)
  | 0 => rfl
  | n + 1 => by
    have below := limbSum_differenceLimb n
    have position := toNat_differenceLimb a b n
    have shift : (2 : Int) ^ (64 * (n + 1)) = 2 ^ 64 * 2 ^ (64 * n) := by exact_mod_cast two_pow_limb_succ n
    simp only [limbSum, Nat.cast_add, Nat.cast_mul, Nat.cast_pow, Nat.cast_ofNat, shift]
    linear_combination below + 2 ^ (64 * n) * position

/-- The borrow out of the top limb is what subtraction modulo 2^256 drops. -/
theorem subByLimbs_eq_wordSub : subByLimbs a b = wordSub a b := by
  apply BitVec.eq_of_toNat_eq
  have total := limbSum_differenceLimb a b 4
  rw [← toNat_ofLimbs, ← subByLimbs_eq_ofLimbs, limbSum_limb_four, limbSum_limb_four] at total
  have fits := (subByLimbs a b).isLt
  rw [wordSub, BitVec.toNat_ofInt]
  omega

end

/-- Settles O44. -/
theorem limbAdditionIsAddition : Obligations.LimbAdditionIsAddition := by
  refine fun a b => ⟨addByLimbs_eq_wordAdd a b, rfl, fun j => ?_⟩
  have carry := limbCarry_le_one a b j
  have limbA := (limb a j).isLt
  have limbB := (limb b j).isLt
  omega

/-- Settles O45. -/
theorem limbSubtractionIsSubtraction : Obligations.LimbSubtractionIsSubtraction :=
  fun a b => ⟨subByLimbs_eq_wordSub a b, rfl, fun j => ⟨limbBorrow_le_one a b j, limbDifference_bounds a b j⟩⟩

/-! ## The bitwise identities (R164) -/

/-- Bit 63 tells which half of the limb's range the limb is in. -/
theorem getElem_top (x : Limb) : x[63] = decide (2 ^ 63 ≤ x.toNat) :=
  (BitVec.msb_eq_getLsbD_last x).symm.trans (BitVec.msb_eq_decide x)

/-- The carry is generated by two high limbs, or passed on by one when the low limb bits carry into bit 63. -/
theorem carryIdentity_iff (a b r : Limb) :
    carryIdentity a b r = true ↔
      (2 ^ 63 ≤ a.toNat ∧ 2 ^ 63 ≤ b.toNat) ∨ ((2 ^ 63 ≤ a.toNat ∨ 2 ^ 63 ≤ b.toNat) ∧ r.toNat < 2 ^ 63) := by
  simp [carryIdentity, getElem_top]

theorem borrowIdentity_iff (a b r : Limb) :
    borrowIdentity a b r = true ↔
      (a.toNat < 2 ^ 63 ∧ 2 ^ 63 ≤ b.toNat) ∨ ((a.toNat < 2 ^ 63 ∨ 2 ^ 63 ≤ b.toNat) ∧ 2 ^ 63 ≤ r.toNat) := by
  simp [borrowIdentity, getElem_top]

/-- Settles O48, by comparing each limb and the result with 2^63. -/
theorem carryIdentitiesAgree : Obligations.CarryIdentitiesAgree := by
  intro a b c bit
  have limbA := a.isLt
  have limbB := b.isLt
  constructor
  · rw [Bool.eq_iff_iff, carryIdentity_iff, decide_eq_true_eq, BitVec.toNat_ofNat]
    omega
  · rw [Bool.eq_iff_iff, borrowIdentity_iff, decide_eq_true_eq, BitVec.toNat_ofInt]
    omega

end Sys2Proof.Machine

/-! PROOFS. The commands `WADD` and `WSUB` (`42_word256_addsub.md` R160, R161, R165, R166): the result and the frame, the
laws from the ring of 256-bit words, and what the wrapped result tells the host. -/

namespace Sys2Proof.Machine

/-! ## The integer rules as the ring operations of 256-bit words -/

theorem wordAdd_eq_add (a b : Value256) : wordAdd a b = a + b := (BitVec.add_def a b).symm

theorem toNat_wordAdd (a b : Value256) : (wordAdd a b).toNat = (a.toNat + b.toNat) % 2 ^ 256 := BitVec.toNat_ofNat _ _

theorem toNat_wordSub (a b : Value256) : ((wordSub a b).toNat : Int) = ((a.toNat : Int) - b.toNat) % 2 ^ 256 := by
  rw [wordSub, BitVec.toNat_ofInt, Int.toNat_of_nonneg (Int.emod_nonneg _ (by decide))]
  norm_cast

theorem wordSub_eq_sub (a b : Value256) : wordSub a b = a - b := by
  apply BitVec.eq_of_toNat_eq
  have difference := toNat_wordSub a b
  rw [BitVec.toNat_sub]
  omega

/-! ## The two commands -/

theorem wellFormed_wadd (d a b : Fin 8) : Instr.wellFormed (.wadd (wField d) (wField a) (wField b)) = true := by
  simp [Instr.wellFormed]

theorem wellFormed_wsub (d a b : Fin 8) : Instr.wellFormed (.wsub (wField d) (wField a) (wField b)) = true := by
  simp [Instr.wellFormed]

theorem exec_wadd (d a b : Fin 8) (s : State) :
    exec (.wadd (wField d) (wField a) (wField b)) s = .next (s.setWord d (wordAdd (s.wordAt a) (s.wordAt b)) false) := by
  rw [exec, execWadd, wordOp_next (wellFormed_wadd d a b), wIndex_wField, wIndex_wField, wIndex_wField]

theorem exec_wsub (d a b : Fin 8) (s : State) :
    exec (.wsub (wField d) (wField a) (wField b)) s = .next (s.setWord d (wordSub (s.wordAt a) (s.wordAt b)) false) := by
  rw [exec, execWsub, wordOp_next (wellFormed_wsub d a b), wIndex_wField, wIndex_wField, wIndex_wField]

/-- Settles O28. -/
theorem waddAddsModuloTwoPow256 : Obligations.WaddAddsModuloTwoPow256 := by
  refine fun d a b s => ⟨decodeOfEncodeGivesCommand (.wadd (wField d) (wField a) (wField b)) (wellFormed_wadd d a b), _,
    exec_wadd d a b s, ?_, ovfAt_setWord_self s d _ _, onlyWord_setWord s d _ _⟩
  rw [wordAt_setWord_self, toNat_wordAdd]

/-- Settles O29. -/
theorem wsubSubtractsModuloTwoPow256 : Obligations.WsubSubtractsModuloTwoPow256 := by
  refine fun d a b s => ⟨decodeOfEncodeGivesCommand (.wsub (wField d) (wField a) (wField b)) (wellFormed_wsub d a b), _,
    exec_wsub d a b s, ?_, ovfAt_setWord_self s d _ _, onlyWord_setWord s d _ _⟩
  rw [wordAt_setWord_self, toNat_wordSub]

/-! ## The laws (R165) -/

/-- A second write to the same register is all that is left of the two. -/
theorem setWord_setWord (s : State) (d : Fin 8) (v v' : Value256) (o o' : Bool) :
    (s.setWord d v o).setWord d v' o' = s.setWord d v' o' := by
  simp [State.setWord]

/-! The second command of an expression: its destination holds the word that the first one wrote. -/

section
variable (s : State) {d : Fin 8} (v : Value256)

theorem exec_wadd_after_left {b : Fin 8} (ne : b ≠ d) :
    exec (.wadd (wField d) (wField d) (wField b)) (s.setWord d v false) =
      .next (s.setWord d (wordAdd v (s.wordAt b)) false) := by
  rw [exec_wadd, setWord_setWord, wordAt_setWord_self, wordAt_setWord_ne s _ _ ne]

theorem exec_wadd_after_right {a : Fin 8} (ne : a ≠ d) :
    exec (.wadd (wField d) (wField a) (wField d)) (s.setWord d v false) =
      .next (s.setWord d (wordAdd (s.wordAt a) v) false) := by
  rw [exec_wadd, setWord_setWord, wordAt_setWord_self, wordAt_setWord_ne s _ _ ne]

theorem exec_wsub_after_left {b : Fin 8} (ne : b ≠ d) :
    exec (.wsub (wField d) (wField d) (wField b)) (s.setWord d v false) =
      .next (s.setWord d (wordSub v (s.wordAt b)) false) := by
  rw [exec_wsub, setWord_setWord, wordAt_setWord_self, wordAt_setWord_ne s _ _ ne]

end

/-- Settles O53: each side of a law writes one word, and the words are equal in the ring. -/
theorem wordAddSubLaws : Obligations.WordAddSubLaws := by
  intro d a b c z s
  refine ⟨?commutative, fun neA neC => ?associative, fun neB => ?cancellation, fun neA zero => ?negation⟩
  case commutative =>
    rw [exec_wadd, exec_wadd, wordAdd_eq_add, wordAdd_eq_add, add_comm]
  case associative =>
    rw [exec_wadd, exec_wadd, thenDo, thenDo, exec_wadd_after_left s _ neC.symm, exec_wadd_after_right s _ neA.symm]
    simp only [wordAdd_eq_add, add_assoc]
  case cancellation =>
    rw [exec_wadd, thenDo, exec_wsub_after_left s _ neB.symm]
    refine ⟨_, rfl, ?_⟩
    rw [wordAt_setWord_self, wordSub_eq_sub, wordAdd_eq_add, add_sub_cancel_right]
  case negation =>
    rw [exec_wsub, exec_wsub, thenDo, exec_wadd_after_right s _ neA.symm, zero]
    simp only [wordAdd_eq_add, wordSub_eq_sub]
    rw [← add_sub_assoc, add_zero]

/-! ## Wrap-around (R166) -/

theorem toNat_wordAdd_lt_left (a b : Value256) : (wordAdd a b).toNat < a.toNat ↔ 2 ^ 256 ≤ a.toNat + b.toNat := by
  have wordA := a.isLt
  have wordB := b.isLt
  rw [toNat_wordAdd]
  omega

theorem toNat_wordAdd_lt_right (a b : Value256) : (wordAdd a b).toNat < b.toNat ↔ 2 ^ 256 ≤ a.toNat + b.toNat := by
  rw [wordAdd_eq_add, add_comm a, ← wordAdd_eq_add, Nat.add_comm, toNat_wordAdd_lt_left]

theorem lt_toNat_wordSub (a b : Value256) : a.toNat < b.toNat ↔ a.toNat < (wordSub a b).toNat := by
  have wordA := a.isLt
  have wordB := b.isLt
  have difference := toNat_wordSub a b
  omega

theorem sameFaultRecord_setWord (s : State) (d : Fin 8) (v : Value256) (o : Bool) : SameFaultRecord s (s.setWord d v o) :=
  ⟨rfl, rfl, rfl, rfl⟩

/-- Settles O54. -/
theorem wrapAroundIsDetectable : Obligations.WrapAroundIsDetectable := by
  refine fun d a b s => ⟨⟨_, exec_wadd d a b s, ?_, ?_, sameFaultRecord_setWord s d _ _⟩,
    _, exec_wsub d a b s, ?_, sameFaultRecord_setWord s d _ _⟩ <;> rw [wordAt_setWord_self]
  · exact toNat_wordAdd_lt_left _ _
  · exact toNat_wordAdd_lt_right _ _
  · exact lt_toNat_wordSub _ _

end Sys2Proof.Machine

/-! PROOFS. Word256 multiplication limb pair by limb pair (`43_word256_mul.md` R183): what one row and what all rows make of
the accumulator, by recursion over the limbs of `b` and of `a`. -/

namespace Sys2Proof.Machine

/-! ## The integer of a list of limbs (R21, R25) -/

theorem limbsValue_eq_ofDigits : ∀ ls, limbsValue ls = Nat.ofDigits (2 ^ 64) ls
  | [] => rfl
  | l :: ls => by rw [limbsValue, limbsValue_eq_ofDigits ls, Nat.ofDigits_cons]

/-- A limb in range is read off the integer by its position. -/
theorem getElem_eq_limbsValue {ls : List Nat} (bounded : ∀ l ∈ ls, l < 2 ^ 64) {k : Nat} (hk : k < ls.length) :
    ls[k] = limbsValue ls / 2 ^ (64 * k) % 2 ^ 64 := by
  rw [limbsValue_eq_ofDigits, pow_mul, Nat.ofDigits_div_pow_eq_ofDigits_drop k (by decide) ls bounded,
    List.drop_eq_getElem_cons hk, Nat.ofDigits_cons, Nat.add_mul_mod_self_left,
    Nat.mod_eq_of_lt (bounded _ (List.getElem_mem hk))]

theorem limbList_eq (v : Value256) :
    limbList v = [(limb v 0).toNat, (limb v 1).toNat, (limb v 2).toNat, (limb v 3).toNat] := rfl

theorem limbsValue_limbList (v : Value256) : limbsValue (limbList v) = v.toNat := by
  rw [limbList_eq, ← limbSum_limb_four]
  simp only [limbsValue, limbSum]
  omega

theorem limbList_lt (v : Value256) : ∀ l ∈ limbList v, l < 2 ^ 64 := by
  intro l mem
  obtain ⟨j, -, rfl⟩ := List.mem_map.mp mem
  exact (limb v j).isLt

/-! ## One row -/

/-- The step of R183 fits 128 bits, so its carry is a limb. -/
theorem limbProduct_div_lt {ai b t carry : Nat} (hai : ai < 2 ^ 64) (hb : b < 2 ^ 64) (ht : t < 2 ^ 64)
    (hcarry : carry < 2 ^ 64) : (ai * b + t + carry) / 2 ^ 64 < 2 ^ 64 := by
  have product : ai * b ≤ (2 ^ 64 - 1) * (2 ^ 64 - 1) := Nat.mul_le_mul (by omega) (by omega)
  omega

theorem length_mulRow (ai : Nat) (bs acc : List Nat) (carry : Nat) : (mulRow ai bs acc carry).length = acc.length := by
  fun_induction mulRow with
  | case1 b bs t ts carry step ih => rw [List.length_cons, ih, List.length_cons]
  | case2 => rfl
  | case3 => rfl

/-- A row leaves the limbs after the carry out of it. -/
theorem drop_mulRow (ai : Nat) (bs acc : List Nat) (carry : Nat) :
    (mulRow ai bs acc carry).drop (bs.length + 1) = acc.drop (bs.length + 1) := by
  fun_induction mulRow with
  | case1 b bs t ts carry step ih => exact ih
  | case2 => rfl
  | case3 => rfl

theorem mulRow_lt {ai : Nat} (hai : ai < 2 ^ 64) {bs acc : List Nat} {carry : Nat} (hbs : ∀ l ∈ bs, l < 2 ^ 64)
    (hacc : ∀ l ∈ acc, l < 2 ^ 64) (hcarry : carry < 2 ^ 64) : ∀ l ∈ mulRow ai bs acc carry, l < 2 ^ 64 := by
  fun_induction mulRow with
  | case1 b bs t ts carry step ih =>
    rw [List.forall_mem_cons] at hbs hacc ⊢
    exact ⟨Nat.mod_lt _ (by decide), ih hbs.2 hacc.2 (limbProduct_div_lt hai hbs.1 hacc.1 hcarry)⟩
  | case2 t ts carry => exact List.forall_mem_cons.mpr ⟨hcarry, (List.forall_mem_cons.mp hacc).2⟩
  | case3 => exact hacc

/-- A row adds `ai * b` and the carry into it, when the limb that the carry out of it overwrites is 0. -/
theorem limbsValue_mulRow {ai : Nat} {bs acc rest : List Nat} {carry : Nat} (clear : acc.drop bs.length = 0 :: rest) :
    limbsValue (mulRow ai bs acc carry) = limbsValue acc + ai * limbsValue bs + carry := by
  fun_induction mulRow with
  | case1 b bs t ts carry step ih =>
    have parts : step % 2 ^ 64 + 2 ^ 64 * (step / 2 ^ 64) = ai * b + t + carry := Nat.mod_add_div _ _
    rw [limbsValue, limbsValue, limbsValue, ih clear]
    linear_combination parts
  | case2 t ts carry =>
    obtain ⟨rfl, -⟩ := List.cons.inj clear
    simp only [limbsValue]
    omega
  | case3 => simp at clear

/-! ## All rows -/

theorem length_mulRows (as bs acc : List Nat) : (mulRows as bs acc).length = acc.length := by
  fun_induction mulRows with
  | case1 => rfl
  | case2 ai as bs acc row => rw [← length_mulRow ai bs acc 0, row]
  | case3 ai as bs acc t ts row ih => rw [← length_mulRow ai bs acc 0, row, List.length_cons, List.length_cons, ih]

theorem mulRows_lt {as bs acc : List Nat} (has : ∀ l ∈ as, l < 2 ^ 64) (hbs : ∀ l ∈ bs, l < 2 ^ 64)
    (hacc : ∀ l ∈ acc, l < 2 ^ 64) : ∀ l ∈ mulRows as bs acc, l < 2 ^ 64 := by
  fun_induction mulRows with
  | case1 => exact hacc
  | case2 => exact fun _ mem => absurd mem List.not_mem_nil
  | case3 ai as bs acc t ts row ih =>
    rw [List.forall_mem_cons] at has
    have rowBounded := mulRow_lt has.1 hbs hacc (carry := 0) (by decide)
    rw [row, List.forall_mem_cons] at rowBounded
    exact List.forall_mem_cons.mpr ⟨rowBounded.1, ih has.2 hbs rowBounded.2⟩

/-- The rows add the product, when the accumulator holds a 0 for each carry out of a row. -/
theorem limbsValue_mulRows {as bs acc : List Nat} (clear : acc.drop bs.length = List.replicate as.length 0) :
    limbsValue (mulRows as bs acc) = limbsValue acc + limbsValue as * limbsValue bs := by
  fun_induction mulRows with
  | case1 => rw [limbsValue, Nat.zero_mul, Nat.add_zero]
  | case2 ai as bs acc row =>
    have empty : acc = [] := List.length_eq_zero_iff.mp (by rw [← length_mulRow ai bs acc 0, row, List.length_nil])
    simp [empty, List.replicate_succ] at clear
  | case3 ai as bs acc t ts row ih =>
    have value := limbsValue_mulRow (ai := ai) (carry := 0) clear
    have clearAfter : ts.drop bs.length = List.replicate as.length 0 := by
      have after := drop_mulRow ai bs acc 0
      rw [row, List.drop_succ_cons, ← List.tail_drop, clear] at after
      exact after
    rw [row, limbsValue] at value
    rw [limbsValue, limbsValue, ih clearAfter]
    linear_combination value

theorem length_mulByLimbs (a b : Value256) : (mulByLimbs a b).length = 8 := length_mulRows _ _ _

theorem mulByLimbs_lt (a b : Value256) : ∀ l ∈ mulByLimbs a b, l < 2 ^ 64 :=
  mulRows_lt (limbList_lt a) (limbList_lt b) (by decide)

theorem limbsValue_mulByLimbs (a b : Value256) : limbsValue (mulByLimbs a b) = a.toNat * b.toNat := by
  have start : limbsValue (List.replicate 8 0) = 0 := rfl
  rw [mulByLimbs, limbsValue_mulRows rfl, start, limbsValue_limbList, limbsValue_limbList, Nat.zero_add]

theorem toNat_productLimb (p : Value512) (j : Nat) : (productLimb p j).toNat = p.toNat / 2 ^ (64 * j) % 2 ^ 64 := by
  rw [productLimb, BitVec.extractLsb'_toNat, Nat.shiftRight_eq_div_pow]

/-- Settles O46. -/
theorem limbMultiplicationIsMultiplication : Obligations.LimbMultiplicationIsMultiplication := by
  refine fun a b => ⟨length_mulByLimbs a b, mulByLimbs_lt a b, limbsValue_mulByLimbs a b, fun k hk => ?_⟩
  have inside : k < (mulByLimbs a b).length := hk.trans_eq (length_mulByLimbs a b).symm
  rw [List.getElem?_eq_getElem inside, getElem_eq_limbsValue (mulByLimbs_lt a b) inside, limbsValue_mulByLimbs,
    toNat_productLimb, wordMul_toNat]

end Sys2Proof.Machine

/-! PROOFS. The commands `WMUL`, `WMVPL` and `WMVPH` (`43_word256_mul.md` R180 to R182, R184): the results and the frames,
and the laws of the product. -/

namespace Sys2Proof.Machine

/-! ## The halves of the product register (R181, R182) -/

theorem toNat_lowHalf (p : Value512) : (lowHalf p).toNat = p.toNat % 2 ^ 256 := by
  rw [lowHalf, BitVec.toNat_ofNat, Nat.mod_mod]

theorem toNat_highHalf (p : Value512) : (highHalf p).toNat = p.toNat / 2 ^ 256 := by
  have fits : p.toNat / 2 ^ 256 < 2 ^ (512 - 256) := Nat.div_lt_of_lt_mul (by rw [← Nat.pow_add]; exact p.isLt)
  rw [highHalf, BitVec.toNat_ofNat, Nat.mod_eq_of_lt fits]

theorem limb_lowHalf (p : Value512) {j : Nat} (hj : j < 4) : limb (lowHalf p) j = productLimb p j := by
  apply BitVec.eq_of_toNat_eq
  have position : 2 ^ 256 = 2 ^ (64 * j) * 2 ^ (256 - 64 * j) := by rw [← Nat.pow_add, Nat.add_sub_cancel' (by omega)]
  rw [toNat_limb, toNat_lowHalf, toNat_productLimb, position, Nat.mod_mul_right_div_self,
    Nat.mod_mod_of_dvd _ (Nat.pow_dvd_pow 2 (by omega))]

theorem limb_highHalf (p : Value512) (j : Nat) : limb (highHalf p) j = productLimb p (j + 4) := by
  apply BitVec.eq_of_toNat_eq
  rw [toNat_limb, toNat_highHalf, toNat_productLimb, Nat.div_div_eq_div_mul, ← Nat.pow_add]
  congr 3
  omega

/-! ## The three commands -/

theorem wellFormed_wmul (d a b : Fin 8) : Instr.wellFormed (.wmul (wField d) (wField a) (wField b)) = true := by
  simp [Instr.wellFormed]

theorem wellFormed_wmvpl (d : Fin 8) : Instr.wellFormed (.wmvpl (wField d)) = true := isWReg_wField d

theorem wellFormed_wmvph (d : Fin 8) : Instr.wellFormed (.wmvph (wField d)) = true := isWReg_wField d

/-- The three must-be-zero fields at the end of the words of `WMVPL` and `WMVPH`, as one. -/
theorem formatR_move (op : BitVec 8) (d : RegField) : formatR op d 0 0 = op ++ d ++ 0#20 := by
  apply BitVec.eq_of_getLsbD_eq; intro i hi
  simp only [formatR, BitVec.getLsbD_append]
  grind

/-- What `WMUL` leads to: the product `p` in `P`, its low half in `d` and its verdict in `d`'s flag (R180). -/
def writeProduct (d : Fin 8) (p : Value512) (s : State) : State :=
  { s with p := p }.setWord d (lowHalf p) (mulOverflow p)

theorem exec_wmul_wField (d a b : Fin 8) (s : State) :
    exec (.wmul (wField d) (wField a) (wField b)) s = .next (writeProduct d (wordMul (s.wordAt a) (s.wordAt b)) s) := by
  rw [exec_wmul (wellFormed_wmul d a b), wIndex_wField, wIndex_wField, wIndex_wField, writeProduct]

theorem exec_wmvpl (d : Fin 8) (s : State) : exec (.wmvpl (wField d)) s = .next (s.setWord d (lowHalf s.p) false) := by
  rw [exec, execWmvpl, moveHalf_next (wellFormed_wmvpl d), wIndex_wField]

theorem exec_wmvph (d : Fin 8) (s : State) : exec (.wmvph (wField d)) s = .next (s.setWord d (highHalf s.p) false) := by
  rw [exec, execWmvph, moveHalf_next (wellFormed_wmvph d), wIndex_wField]

section
variable (d : Fin 8) (p : Value512) (s : State)

theorem writeProduct_p : (writeProduct d p s).p = p := rfl

theorem toNat_wordAt_writeProduct : ((writeProduct d p s).wordAt d).toNat = p.toNat % 2 ^ 256 := by
  rw [writeProduct, wordAt_setWord_self, toNat_lowHalf]

theorem ovfAt_writeProduct : (writeProduct d p s).ovfAt d = mulOverflow p :=
  ovfAt_setWord_self { s with p := p } d _ _

/-- Beside `P`, writing a product changes register `d` alone. -/
theorem writeProduct_frame :
    SameWordsBut d s (writeProduct d p s) ∧ SameMps s (writeProduct d p s) ∧ SameBytes s (writeProduct d p s) ∧
      SameStatus s (writeProduct d p s) ∧ SameFaultRecord s (writeProduct d p s) ∧ SameHost s (writeProduct d p s) := by
  obtain ⟨words, -, others⟩ := onlyWord_setWord { s with p := p } d (lowHalf p) (mulOverflow p)
  exact ⟨words, others⟩

end

/-- Settles O30. -/
theorem wmulWritesFullProduct : Obligations.WmulWritesFullProduct :=
  fun d a b s => ⟨decodeOfEncodeGivesCommand (.wmul (wField d) (wField a) (wField b)) (wellFormed_wmul d a b), _,
    exec_wmul_wField d a b s, wordMul_toNat _ _, toNat_wordAt_writeProduct d _ s, ovfAt_writeProduct d _ s,
    writeProduct_frame d _ s⟩

/-- Settles O31. -/
theorem moveCommandsCopyProductHalves : Obligations.MoveCommandsCopyProductHalves := by
  refine fun d s => ⟨⟨?_, _, exec_wmvpl d s, ?_, ovfAt_setWord_self s d _ _, fun j hj => ?_, onlyWord_setWord s d _ _⟩,
    ?_, _, exec_wmvph d s, ?_, ovfAt_setWord_self s d _ _, fun j _ => ?_, onlyWord_setWord s d _ _⟩
  · rw [← formatR_move]
    exact decodeOfEncodeGivesCommand (.wmvpl (wField d)) (wellFormed_wmvpl d)
  · rw [wordAt_setWord_self, toNat_lowHalf]
  · rw [wordAt_setWord_self, limb_lowHalf s.p hj]
  · rw [← formatR_move]
    exact decodeOfEncodeGivesCommand (.wmvph (wField d)) (wellFormed_wmvph d)
  · rw [wordAt_setWord_self, toNat_highHalf]
  · rw [wordAt_setWord_self, limb_highHalf]

/-! ## The laws (R184) -/

theorem wordMul_comm (a b : Value256) : wordMul a b = wordMul b a :=
  BitVec.eq_of_toNat_eq (Nat.mul_comm _ _)

/-- Settles O55. -/
theorem multiplyLaws : Obligations.MultiplyLaws := by
  intro d a b s
  refine ⟨?symmetric, _, exec_wmul_wField d a b s, ?halves, ?verdict, fun clear => ?exact⟩
  case symmetric => rw [exec_wmul_wField, exec_wmul_wField, wordMul_comm]
  case halves => rw [toNat_wordAt_writeProduct, writeProduct_p, Nat.mod_add_div]
  case verdict => rw [ovfAt_writeProduct, mulOverflow_wordMul, decide_eq_true_eq]
  case exact =>
    rw [ovfAt_writeProduct, mulOverflow_wordMul, decide_eq_false_iff_not, Nat.not_le] at clear
    rw [toNat_wordAt_writeProduct, wordMul_toNat, Nat.mod_eq_of_lt clear]

end Sys2Proof.Machine

/-! PROOFS. Word256 shifts and bitwise operations as those of 256-bit words (`44_word256_shift_logic.md` R200 to R205): the
integer rules by their values, and the limb-level algorithms bit by bit, along the whole-limb and the in-limb part of the
amount. -/

namespace Sys2Proof.Machine

/-! ## Words by their limbs (R21) -/

theorem ofLimbs_limb (v : Value256) : ofLimbs (limb v) = v :=
  BitVec.eq_of_toNat_eq ((toNat_ofLimbs _).trans (limbSum_limb_four v))

/-- A word is made of limbs that agree with its own at the four positions there are. -/
theorem ofLimbs_eq_of_limb {f : Nat → Limb} {v : Value256} (limbs : ∀ j < 4, f j = limb v j) : ofLimbs f = v := by
  rw [← ofLimbs_limb v, ofLimbs, limbs 0 (by decide), limbs 1 (by decide), limbs 2 (by decide), limbs 3 (by decide), ofLimbs]

theorem getLsbD_limb (v : Value256) (j i : Nat) : (limb v j).getLsbD i = (decide (i < 64) && v.getLsbD (64 * j + i)) :=
  BitVec.getLsbD_extractLsb' ..

/-! ## The bitwise operations (R202 to R204) -/

section
variable (a b : Value256)

theorem limb_and (j : Nat) : limb (a &&& b) j = limb a j &&& limb b j := BitVec.extractLsb'_and
theorem limb_or (j : Nat) : limb (a ||| b) j = limb a j ||| limb b j := BitVec.extractLsb'_or
theorem limb_xor (j : Nat) : limb (a ^^^ b) j = limb a j ^^^ limb b j := BitVec.extractLsb'_xor

theorem wordAnd_eq_and : wordAnd a b = a &&& b := ofLimbs_eq_of_limb fun j _ => (limb_and a b j).symm
theorem wordOr_eq_or : wordOr a b = a ||| b := ofLimbs_eq_of_limb fun j _ => (limb_or a b j).symm
theorem wordXor_eq_xor : wordXor a b = a ^^^ b := ofLimbs_eq_of_limb fun j _ => (limb_xor a b j).symm

end

/-! ## The shifts (R200, R201) -/

section
variable (a : Value256) {n : Nat}

theorem wordShl_of_ge (h : 256 ≤ n) : wordShl a n = 0 := if_pos h

theorem wordShr_of_ge (h : 256 ≤ n) : wordShr a n = 0 := if_pos h

/-- The arm for large amounts is what the arm for small ones would give: every bit is shifted out. -/
theorem toNat_wordShl (n : Nat) : (wordShl a n).toNat = a.toNat * 2 ^ n % 2 ^ 256 := by
  by_cases large : 256 ≤ n
  · have multiple : 2 ^ 256 ∣ a.toNat * 2 ^ n := Dvd.dvd.mul_left (Nat.pow_dvd_pow 2 large) _
    rw [wordShl_of_ge a large, Nat.mod_eq_zero_of_dvd multiple]
    rfl
  · rw [wordShl, if_neg large, BitVec.toNat_ofNat, Nat.mod_mod]

theorem toNat_wordShr (n : Nat) : (wordShr a n).toNat = a.toNat / 2 ^ n := by
  by_cases large : 256 ≤ n
  · have small : a.toNat < 2 ^ n := a.isLt.trans_le (Nat.pow_le_pow_right (by decide) large)
    rw [wordShr_of_ge a large, Nat.div_eq_of_lt small]
    rfl
  · have fits : a.toNat / 2 ^ n < 2 ^ 256 := (Nat.div_le_self _ _).trans_lt a.isLt
    rw [wordShr, if_neg large, BitVec.toNat_ofNat, Nat.mod_eq_of_lt fits]

theorem wordShl_eq_shiftLeft (n : Nat) : wordShl a n = a <<< n := by
  apply BitVec.eq_of_toNat_eq
  rw [toNat_wordShl, BitVec.toNat_shiftLeft, Nat.shiftLeft_eq]

theorem wordShr_eq_ushiftRight (n : Nat) : wordShr a n = a >>> n := by
  apply BitVec.eq_of_toNat_eq
  rw [toNat_wordShr, BitVec.toNat_ushiftRight, Nat.shiftRight_eq_div_pow]

end

/-! ## The shifts limb by limb (R205) -/

/-- The in-limb parts of R205 are shifts of one limb. -/
theorem ofNat_mul_two_pow (x : Limb) (r : Nat) : BitVec.ofNat 64 (x.toNat * 2 ^ r % 2 ^ 64) = x <<< r := by
  apply BitVec.eq_of_toNat_eq
  rw [BitVec.toNat_ofNat, Nat.mod_mod, BitVec.toNat_shiftLeft, Nat.shiftLeft_eq]

theorem ofNat_div_two_pow (x : Limb) (r : Nat) : BitVec.ofNat 64 (x.toNat / 2 ^ r) = x >>> r := by
  have fits : x.toNat / 2 ^ r < 2 ^ 64 := (Nat.div_le_self _ _).trans_lt x.isLt
  apply BitVec.eq_of_toNat_eq
  rw [BitVec.toNat_ofNat, Nat.mod_eq_of_lt fits, BitVec.toNat_ushiftRight, Nat.shiftRight_eq_div_pow]

section
variable (a : Value256) (n : Nat)

/-- Two neighbouring limbs, shifted towards each other, make the 64 bits of the word from bit `r` of the lower one on. -/
theorem limb_or_limb_eq_extract (j : Nat) {r : Nat} (hr : r ≤ 64) :
    limb a j >>> r ||| limb a (j + 1) <<< (64 - r) = a.extractLsb' (64 * j + r) 64 := by
  apply BitVec.eq_of_getLsbD_eq
  intro i hi
  rw [BitVec.getLsbD_or, BitVec.getLsbD_ushiftRight, BitVec.getLsbD_shiftLeft, getLsbD_limb, getLsbD_limb,
    BitVec.getLsbD_extractLsb']
  by_cases lower : r + i < 64
  · have notUpper : i < 64 - r := by omega
    simp [lower, notUpper, hi, Nat.add_assoc]
  · have upper : ¬ i < 64 - r := by omega
    have inUpper : i - (64 - r) < 64 := by omega
    have source : 64 * (j + 1) + (i - (64 - r)) = 64 * j + r + i := by omega
    simp [lower, upper, inUpper, source, hi]

theorem limb_ushiftRight (j : Nat) : limb (a >>> n) j = a.extractLsb' (64 * j + n) 64 := by
  apply BitVec.eq_of_getLsbD_eq
  intro i hi
  rw [getLsbD_limb, BitVec.getLsbD_ushiftRight, BitVec.getLsbD_extractLsb', ← Nat.add_assoc, Nat.add_comm n]

theorem limb_shiftLeft {j : Nat} (hj : j < 4) (h : n ≤ 64 * j) : limb (a <<< n) j = a.extractLsb' (64 * j - n) 64 := by
  apply BitVec.eq_of_getLsbD_eq
  intro i hi
  have inWord : 64 * j + i < 256 := by omega
  have kept : ¬ 64 * j + i < n := by omega
  rw [getLsbD_limb, BitVec.getLsbD_shiftLeft, BitVec.getLsbD_extractLsb', Nat.sub_add_comm h]
  simp [inWord, kept]

/-- The limbs below the whole-limb part of the amount are clear. -/
theorem limb_shiftLeft_below {j : Nat} (h : j < n / 64) : limb (a <<< n) j = 0 := by
  apply BitVec.eq_of_getLsbD_eq
  intro i hi
  have cleared : 64 * j + i < n := by omega
  simp [getLsbD_limb, cleared]

/-- The lowest limb that is not clear has bits of limb 0 alone. -/
theorem limb_shiftLeft_lowest (h : n < 256) : limb (a <<< n) (n / 64) = limb a 0 <<< (n % 64) := by
  apply BitVec.eq_of_getLsbD_eq
  intro i hi
  have inWord : 64 * (n / 64) + i < 256 := by omega
  rw [getLsbD_limb, BitVec.getLsbD_shiftLeft, BitVec.getLsbD_shiftLeft, getLsbD_limb]
  have moved : 64 * (n / 64) + i < n ↔ i < n % 64 := by omega
  have source : 64 * (n / 64) + i - n = i - n % 64 := by omega
  have inLimb : i - n % 64 < 64 := by omega
  simp [inWord, moved, source, inLimb, Bool.and_assoc]

/-- With no in-limb part, what R205 leaves out is a shift by a whole limb, which is 0. -/
theorem ite_shiftLeft_complement (x : Limb) (r : Nat) : (if r = 0 then 0 else x <<< (64 - r)) = x <<< (64 - r) := by
  split
  case isTrue aligned => rw [aligned, BitVec.shiftLeft_eq_zero (Nat.le_refl 64)]; rfl
  case isFalse => rfl

theorem ite_ushiftRight_complement (x : Limb) (r : Nat) : (if r = 0 then 0 else x >>> (64 - r)) = x >>> (64 - r) := by
  split
  case isTrue aligned => rw [aligned, BitVec.ushiftRight_eq_zero (Nat.le_refl 64)]; rfl
  case isFalse => rfl

theorem shrLimb_eq_limb (j : Nat) : shrLimb a n j = limb (a >>> n) j := by
  have inLimb : n % 64 ≤ 64 := (Nat.mod_lt n (by decide)).le
  have source : 64 * (j + n / 64) + n % 64 = 64 * j + n := by omega
  rw [shrLimb, ofNat_mul_two_pow, ofNat_div_two_pow, ite_shiftLeft_complement, limb_or_limb_eq_extract a _ inLimb, source,
    limb_ushiftRight]

/-- A limb of the left shift lies below the whole-limb part of the amount, at it, or above it. -/
theorem shlLimb_eq_limb {j : Nat} (hj : j < 4) (hn : n < 256) : shlLimb a n j = limb (a <<< n) j := by
  rw [shlLimb, ofNat_mul_two_pow, ofNat_div_two_pow]
  rcases lt_trichotomy j (n / 64) with below | lowest | above
  · rw [if_pos below, limb_shiftLeft_below a n below]
  · subst lowest
    simp [limb_shiftLeft_lowest a n hn]
  · obtain ⟨m, rfl⟩ := Nat.exists_eq_add_of_lt above
    have inLimb : n % 64 ≤ 64 := (Nat.mod_lt n (by decide)).le
    have passed : n ≤ 64 * (n / 64 + m + 1) := by omega
    have source : 64 * (n / 64 + m + 1) - n = 64 * m + (64 - n % 64) := by omega
    have upperLimb : n / 64 + m + 1 - n / 64 = m + 1 := by omega
    have notLowest : ¬ n / 64 + m + 1 < n / 64 + 1 := by omega
    simp only [above.not_gt, if_false, notLowest, or_false]
    rw [upperLimb, Nat.add_sub_cancel, ite_ushiftRight_complement, limb_shiftLeft a n hj passed, source,
      ← limb_or_limb_eq_extract a m (Nat.sub_le _ _), Nat.sub_sub_self inLimb, BitVec.or_comm]

end

/-- Settles O47. -/
theorem limbShiftsAreShifts : Obligations.LimbShiftsAreShifts := by
  refine fun a n small => ⟨?left, ?right⟩
  case left => rw [wordShl_eq_shiftLeft, shlByLimbs, ofLimbs_eq_of_limb fun j hj => shlLimb_eq_limb a n hj small]
  case right => rw [wordShr_eq_ushiftRight, shrByLimbs, ofLimbs_eq_of_limb fun j _ => shrLimb_eq_limb a n j]

end Sys2Proof.Machine

/-! PROOFS. The commands `WSHL`, `WSHR`, `WAND`, `WOR` and `WXOR` with the two pseudo-instructions
(`44_word256_shift_logic.md` R200 to R204, R206; `30_encoding.md` R106): the results and the frames, and the round trips of
the shifts. -/

namespace Sys2Proof.Machine

/-! ## The five commands -/

section
variable (d a b : Fin 8) (n : ShiftAmount)

theorem wellFormed_wshl : Instr.wellFormed (.wshl (wField d) (wField a) n) = true := by simp [Instr.wellFormed]
theorem wellFormed_wshr : Instr.wellFormed (.wshr (wField d) (wField a) n) = true := by simp [Instr.wellFormed]
theorem wellFormed_wand : Instr.wellFormed (.wand (wField d) (wField a) (wField b)) = true := by simp [Instr.wellFormed]
theorem wellFormed_wor : Instr.wellFormed (.wor (wField d) (wField a) (wField b)) = true := by simp [Instr.wellFormed]
theorem wellFormed_wxor : Instr.wellFormed (.wxor (wField d) (wField a) (wField b)) = true := by simp [Instr.wellFormed]

variable (s : State)

theorem exec_wshl :
    exec (.wshl (wField d) (wField a) n) s = .next (s.setWord d (wordShl (s.wordAt a) n.toNat) false) := by
  rw [exec, execWshl, shiftOp_next (wellFormed_wshl d a n), wIndex_wField, wIndex_wField]

theorem exec_wshr :
    exec (.wshr (wField d) (wField a) n) s = .next (s.setWord d (wordShr (s.wordAt a) n.toNat) false) := by
  rw [exec, execWshr, shiftOp_next (wellFormed_wshr d a n), wIndex_wField, wIndex_wField]

theorem exec_wand :
    exec (.wand (wField d) (wField a) (wField b)) s = .next (s.setWord d (s.wordAt a &&& s.wordAt b) false) := by
  rw [exec, execWand, wordOp_next (wellFormed_wand d a b), wIndex_wField, wIndex_wField, wIndex_wField, wordAnd_eq_and]

theorem exec_wor :
    exec (.wor (wField d) (wField a) (wField b)) s = .next (s.setWord d (s.wordAt a ||| s.wordAt b) false) := by
  rw [exec, execWor, wordOp_next (wellFormed_wor d a b), wIndex_wField, wIndex_wField, wIndex_wField, wordOr_eq_or]

theorem exec_wxor :
    exec (.wxor (wField d) (wField a) (wField b)) s = .next (s.setWord d (s.wordAt a ^^^ s.wordAt b) false) := by
  rw [exec, execWxor, wordOp_next (wellFormed_wxor d a b), wIndex_wField, wIndex_wField, wIndex_wField, wordXor_eq_xor]

end

/-- Settles O32. -/
theorem wshlShiftsLeft : Obligations.WshlShiftsLeft := by
  refine fun d a n s => ⟨decodeOfEncodeGivesCommand (.wshl (wField d) (wField a) n) (wellFormed_wshl d a n), _,
    exec_wshl d a n s, fun large => ?_, ?_, ovfAt_setWord_self s d _ _, onlyWord_setWord s d _ _⟩
  · rw [wordAt_setWord_self, wordShl_of_ge _ large]
  · rw [wordAt_setWord_self, toNat_wordShl]

/-- Settles O33. -/
theorem wshrShiftsRight : Obligations.WshrShiftsRight := by
  refine fun d a n s => ⟨decodeOfEncodeGivesCommand (.wshr (wField d) (wField a) n) (wellFormed_wshr d a n), _,
    exec_wshr d a n s, fun large => ?_, ?_, ovfAt_setWord_self s d _ _, onlyWord_setWord s d _ _⟩
  · rw [wordAt_setWord_self, wordShr_of_ge _ large]
  · rw [wordAt_setWord_self, toNat_wordShr]

/-- Settles O34. -/
theorem bitwiseCommandsActLimbWise : Obligations.BitwiseCommandsActLimbWise := by
  refine fun d a b s => ⟨⟨?_, _, exec_wand d a b s, fun j _ => ?_, wordAt_setWord_self s d _ _, ovfAt_setWord_self s d _ _,
      onlyWord_setWord s d _ _⟩,
    ⟨?_, _, exec_wor d a b s, fun j _ => ?_, wordAt_setWord_self s d _ _, ovfAt_setWord_self s d _ _,
      onlyWord_setWord s d _ _⟩,
    ⟨?_, _, exec_wxor d a b s, fun j _ => ?_, wordAt_setWord_self s d _ _, ovfAt_setWord_self s d _ _,
      onlyWord_setWord s d _ _⟩⟩
  · exact decodeOfEncodeGivesCommand (.wand (wField d) (wField a) (wField b)) (wellFormed_wand d a b)
  · rw [wordAt_setWord_self, limb_and]
  · exact decodeOfEncodeGivesCommand (.wor (wField d) (wField a) (wField b)) (wellFormed_wor d a b)
  · rw [wordAt_setWord_self, limb_or]
  · exact decodeOfEncodeGivesCommand (.wxor (wField d) (wField a) (wField b)) (wellFormed_wxor d a b)
  · rw [wordAt_setWord_self, limb_xor]

/-- Settles O6: `x ||| x` is `x`, and `x ^^^ x` is 0. -/
theorem pseudoInstructionEffects : Obligations.PseudoInstructionEffects := by
  refine fun d a s => ⟨rfl, rfl,
    ⟨_, exec_wor d a a s, ?copy, ovfAt_setWord_self s d _ _, onlyWord_setWord s d _ _⟩,
    ⟨_, exec_wxor d d d s, ?zero, ovfAt_setWord_self s d _ _, onlyWord_setWord s d _ _⟩⟩
  case copy => rw [wordAt_setWord_self, BitVec.or_self]
  case zero => exact (wordAt_setWord_self s d _ _).trans BitVec.xor_self

/-! ## The round trips (R206) -/

section
variable (v : Value256) {k : Nat}

/-- A left shift and back loses the top `k` bits. -/
theorem toNat_wordShr_wordShl (hk : k ≤ 256) : (wordShr (wordShl v k) k).toNat = v.toNat % 2 ^ (256 - k) := by
  have parts : 2 ^ 256 = 2 ^ (256 - k) * 2 ^ k := by rw [← Nat.pow_add, Nat.sub_add_cancel hk]
  rw [toNat_wordShr, toNat_wordShl, parts, Nat.mul_mod_mul_right, Nat.mul_div_cancel _ (Nat.two_pow_pos k)]

theorem wordShr_wordShl_eq_self_iff (hk : k ≤ 256) : wordShr (wordShl v k) k = v ↔ v.toNat < 2 ^ (256 - k) := by
  rw [← BitVec.toNat_inj, toNat_wordShr_wordShl v hk, Nat.mod_eq_iff_lt (Nat.two_pow_pos _).ne']

/-- A right shift and back clears the low `k` bits. -/
theorem toNat_wordShl_wordShr (k : Nat) : (wordShl (wordShr v k) k).toNat = v.toNat - v.toNat % 2 ^ k := by
  have fits : v.toNat - v.toNat % 2 ^ k < 2 ^ 256 := (Nat.sub_le _ _).trans_lt v.isLt
  rw [toNat_wordShl, toNat_wordShr, Nat.div_mul_self_eq_mod_sub_self, Nat.mod_eq_of_lt fits]

end

/-! The second shift finds in `d` the word that the first one wrote. -/

section
variable (d a : Fin 8) (k : ShiftAmount) (s : State)

theorem exec_wshl_then_wshr :
    thenDo (exec (.wshl (wField d) (wField a) k) s) (exec (.wshr (wField d) (wField d) k)) =
      .next (s.setWord d (wordShr (wordShl (s.wordAt a) k.toNat) k.toNat) false) := by
  rw [exec_wshl, thenDo, exec_wshr, setWord_setWord, wordAt_setWord_self]

theorem exec_wshr_then_wshl :
    thenDo (exec (.wshr (wField d) (wField a) k) s) (exec (.wshl (wField d) (wField d) k)) =
      .next (s.setWord d (wordShl (wordShr (s.wordAt a) k.toNat) k.toNat) false) := by
  rw [exec_wshr, thenDo, exec_wshl, setWord_setWord, wordAt_setWord_self]

end

/-- Settles O56. -/
theorem shiftRoundTrips : Obligations.ShiftRoundTrips := by
  refine fun d a k s small => ⟨⟨_, exec_wshl_then_wshr d a k s, ?_, ?_⟩, _, exec_wshr_then_wshl d a k s, ?_⟩ <;>
    rw [wordAt_setWord_self]
  · exact toNat_wordShr_wordShl _ small.le
  · exact wordShr_wordShl_eq_self_iff _ small.le
  · exact toNat_wordShl_wordShr _ _

end Sys2Proof.Machine

/-! PROOFS. The loads and stores between a slot and a register (`45_load_store.md` R220 to R227): a slot as its 32
big-endian bytes, each command's effect, and the round trips of a load after a store and of a store after a load. -/

namespace Sys2Proof.Machine

/-! ## A slot and its bytes (R61) -/

/-- The must-be-zero fields of a slot command without a sign, as one. -/
theorem formatM_unsigned (op : BitVec 8) (r : RegField) (slot : SlotField) :
    formatM op r false slot = op ++ r ++ 0#16 ++ slot := by
  apply BitVec.eq_of_getLsbD_eq; intro i hi
  simp only [formatM, BitVec.getLsbD_append]
  grind

section
variable (s : State) (slot : SlotField)

/-- Byte `k` of a slot is byte `k` of the slot's big-endian integer. -/
theorem slotValue_byte {k : Nat} (hk : k < 32) :
    s.slotValue slot / 2 ^ (8 * (31 - k)) % 256 = (s.byteAt (slotAddress slot + k)).toNat := by
  have inside : k < (memRead s.sb (slotAddress slot) 32).length := by rwa [length_memRead]
  have byte := be_byte _ k inside
  rwa [length_memRead, getElem_memRead] at byte

/-- A slot's integer stored in another slot, by then perhaps of another state, copies the 32 bytes. -/
theorem byteAt_setSlot_slotValue {t : State} (wf : Memory.wf t.sb = true) (slot' : SlotField) {k : Nat} (hk : k < 32) :
    (t.setSlot slot' (s.slotValue slot)).byteAt (slotAddress slot' + k) = s.byteAt (slotAddress slot + k) :=
  BitVec.eq_of_toNat_eq ((byteAt_setSlot slot' _ wf hk).trans (slotValue_byte s slot hk))

/-- A Word256 register holds a slot's integer whole. -/
theorem toNat_ofNat_slotValue : (BitVec.ofNat 256 (s.slotValue slot)).toNat = s.slotValue slot :=
  (BitVec.toNat_ofNat _ 256).trans (Nat.mod_eq_of_lt (slotValue_lt s slot))

end

/-! ## The register of a sign and a magnitude (R95, R224) -/

section
variable (sign : Bool) {n : Nat} (fits : n < 2 ^ 256)
include fits

theorem natAbs_signedMagnitude_lt : (signedMagnitude sign n).natAbs < 2 ^ 280 :=
  (signedMagnitude_natAbs sign n).trans_lt (lt_of_lt_of_le fits (Nat.pow_le_pow_right (by decide) (by decide)))

theorem val_mpFromInt_signedMagnitude : val (mpFromInt (signedMagnitude sign n)) = signedMagnitude sign n :=
  val_mpFromInt (natAbs_signedMagnitude_lt sign fits)

theorem mag_mpFromInt_signedMagnitude : mag (mpFromInt (signedMagnitude sign n)) = n :=
  (mag_mpFromInt (natAbs_signedMagnitude_lt sign fits)).trans (signedMagnitude_natAbs sign n)

end

/-- The magnitude of a normalized register reaches 2^256 by its top digit alone: bit 256 is bit 4 of digit 9, and the
digits below make less than 2^252 (R226). -/
theorem two_pow_256_le_mag_iff {m : MPInt} (h : normalized m = true) :
    2 ^ 256 ≤ mag m ↔ m.used = 10 ∧ 16 ≤ digitAt m.dp 9 := by
  obtain ⟨-, -, above⟩ := (normalized_iff m).1 h
  have below : digitSum m.dp 9 < 2 ^ 252 := digitSum_lt m.dp 9
  have parts : mag m = digitSum m.dp 9 + digitAt m.dp 9 * 2 ^ 252 := (digitSum_capacity h).symm
  constructor
  · intro large
    have top : 16 ≤ digitAt m.dp 9 := by omega
    refine ⟨?_, top⟩
    by_contra shorter
    have used_lt := m.used.isLt
    have zero : digitAt m.dp 9 = 0 := above 9 (by omega)
    omega
  · rintro ⟨-, top⟩
    omega

/-! ## The four commands -/

section
variable (r : Fin 8) (slot : SlotField)

theorem wellFormed_wld : Instr.wellFormed (.wld (wField r) slot) = true := isWReg_wField r
theorem wellFormed_wst : Instr.wellFormed (.wst (wField r) slot) = true := isWReg_wField r

theorem exec_wld (s : State) :
    exec (.wld (wField r) slot) s = .next (s.setWord r (BitVec.ofNat 256 (s.slotValue slot)) false) := by
  rw [exec, execWld, whenLegal_legal (wellFormed_wld r slot), wIndex_wField, nonMultiplyOvf]

theorem exec_wst (s : State) : exec (.wst (wField r) slot) s = .next (s.setSlot slot (s.wordAt r).toNat) := by
  rw [exec, execWst, whenLegal_legal (wellFormed_wst r slot), wIndex_wField]

end

section
variable (r : Fin 4) (sign : Bool) (slot : SlotField)

theorem wellFormed_mld : Instr.wellFormed (.mld (mField r) sign slot) = true := isMReg_mField r
theorem wellFormed_mst : Instr.wellFormed (.mst (mField r) slot) = true := isMReg_mField r

theorem exec_mld (s : State) :
    exec (.mld (mField r) sign slot) s = .next (s.setMp r (mpFromInt (signedMagnitude sign (s.slotValue slot)))) := by
  rw [exec, execMld, whenLegal_legal (wellFormed_mld r sign slot), mIndex_mField]

/-- `MST` by cases of the magnitude (R226). -/
theorem exec_mst (s : State) :
    exec (.mst (mField r) slot) s =
      if 2 ^ 256 ≤ mag (s.mpAt r) then raise .narrowOverflow (.mst (mField r) slot) s
      else .next (s.setSlot slot (mag (s.mpAt r))) := by
  rw [exec, execMst, whenLegal_legal (wellFormed_mst r slot), mIndex_mField]

theorem exec_mst_fits {s : State} (fits : mag (s.mpAt r) < 2 ^ 256) :
    exec (.mst (mField r) slot) s = .next (s.setSlot slot (mag (s.mpAt r))) :=
  (exec_mst r slot s).trans (if_neg fits.not_ge)

theorem exec_mst_large {s : State} (large : 2 ^ 256 ≤ mag (s.mpAt r)) :
    exec (.mst (mField r) slot) s = .next (s.takeFault .narrowOverflow (encode (.mst (mField r) slot))) :=
  (exec_mst r slot s).trans (if_pos large)

end

/-- Settles O35. -/
theorem wldLoadsBigEndianSlot : Obligations.WldLoadsBigEndianSlot := by
  refine fun d slot s => ⟨decode_of_encode (formatM_unsigned _ _ _) (wellFormed_wld d slot), _, exec_wld d slot s, ?_,
    fun k hk => ?_, ovfAt_setWord_self s d _ _, onlyWord_setWord s d _ _⟩ <;>
    rw [wordAt_setWord_self, toNat_ofNat_slotValue]
  · rfl
  · exact slotValue_byte s slot hk

/-- Settles O36. -/
theorem wstStoresBigEndianSlot : Obligations.WstStoresBigEndianSlot :=
  fun r slot s wf => ⟨decode_of_encode (formatM_unsigned _ _ _) (wellFormed_wst r slot), _, exec_wst r slot s,
    fun _ => byteAt_setSlot slot _ wf, onlySlot_setSlot s slot _⟩

/-- Settles O37. -/
theorem mldLoadsSignedMagnitude : Obligations.MldLoadsSignedMagnitude := by
  intro d sign slot s
  have fits := slotValue_lt s slot
  refine ⟨decodeOfEncodeGivesCommand (.mld (mField d) sign slot) (wellFormed_mld d sign slot), _, exec_mld d sign slot s,
    ?value, fun k hk => ?digit, ?normal, onlyMp_setMp s d _⟩ <;> rw [mpAt_setMp_self]
  case value => exact val_mpFromInt_signedMagnitude sign fits
  case digit =>
    rw [digitAt_mpFromInt _ hk, signedMagnitude_natAbs]
    rfl
  case normal => exact normalized_mpFromInt (natAbs_signedMagnitude_lt sign fits)

/-- Settles O38. -/
theorem mstStoresMagnitudeOrFaults : Obligations.MstStoresMagnitudeOrFaults := by
  refine fun r slot s wf => ⟨decode_of_encode (formatM_unsigned _ _ _) (wellFormed_mst r slot), fun fits => ?stored,
    fun large => ?faulted, two_pow_256_le_mag_iff⟩
  case stored =>
    exact ⟨_, exec_mst_fits r slot fits, fun _ => byteAt_setSlot slot _ wf, onlySlot_setSlot s slot _⟩
  case faulted =>
    rw [← formatM_unsigned]
    exact ⟨_, exec_mst_large r slot large, recorded_takeFault s .narrowOverflow _,
      onlyFaultRecord_takeFault s .narrowOverflow _⟩

/-! ## The round trips (R222, R227)

A load of the slot just stored reads the integer that was stored, and a store of the register just loaded writes the
integer that was loaded. -/

section
variable (s : State) {n : Nat} (fits : n < 2 ^ 256)

theorem exec_wst_setWord (w : Fin 8) (slot : SlotField) (v : Value256) (o : Bool) :
    exec (.wst (wField w) slot) (s.setWord w v o) = .next ((s.setWord w v o).setSlot slot v.toNat) := by
  rw [exec_wst, wordAt_setWord_self]

include fits

theorem exec_mst_setMp (a : Fin 4) (sign : Bool) (slot : SlotField) :
    exec (.mst (mField a) slot) (s.setMp a (mpFromInt (signedMagnitude sign n))) =
      .next ((s.setMp a (mpFromInt (signedMagnitude sign n))).setSlot slot n) := by
  have held : mag ((s.setMp a (mpFromInt (signedMagnitude sign n))).mpAt a) = n := by
    rw [mpAt_setMp_self, mag_mpFromInt_signedMagnitude sign fits]
  rw [exec_mst_fits a slot (held.trans_lt fits), held]

variable (wf : Memory.wf s.sb = true) (slot : SlotField)
include wf

theorem exec_wld_setSlot (w : Fin 8) :
    exec (.wld (wField w) slot) (s.setSlot slot n) = .next ((s.setSlot slot n).setWord w (BitVec.ofNat 256 n) false) := by
  rw [exec_wld, slotValue_setSlot s slot wf fits]

theorem exec_mld_setSlot (a : Fin 4) (sign : Bool) :
    exec (.mld (mField a) sign slot) (s.setSlot slot n) =
      .next ((s.setSlot slot n).setMp a (mpFromInt (signedMagnitude sign n))) := by
  rw [exec_mld, slotValue_setSlot s slot wf fits]

end

/-- Settles O57. -/
theorem wordSlotRoundTrips : Obligations.WordSlotRoundTrips := by
  refine fun w w' slot slot' s wf => ⟨?register, ?bytes⟩
  case register =>
    rw [exec_wst, thenDo, exec_wld_setSlot s (s.wordAt w).isLt wf, BitVec.ofNat_toNat, BitVec.setWidth_eq]
    exact ⟨_, rfl, wordAt_setWord_self _ w' _ _, ovfAt_setWord_self _ w' _ _⟩
  case bytes =>
    rw [exec_wld, thenDo, exec_wst_setWord, toNat_ofNat_slotValue]
    exact ⟨_, rfl, fun _ => byteAt_setSlot_slotValue s slot wf slot'⟩

/-- Settles O58. -/
theorem mpintSlotRoundTrips : Obligations.MpintSlotRoundTrips := by
  refine fun a b w sign slot slot' s wf => ⟨fun normal fits => ⟨?register, ?toWord⟩, ?bytes, ?toMpint⟩
  case register =>
    rw [exec_mst_fits a slot fits, thenDo, exec_mld_setSlot s fits wf, ← val_eq_signedMagnitude, mpFromInt_val normal]
    exact ⟨_, rfl, mpAt_setMp_self _ b _⟩
  case toWord =>
    rw [exec_mst_fits a slot fits, thenDo, exec_wld_setSlot s fits wf]
    refine ⟨_, rfl, ?_⟩
    rw [wordAt_setWord_self, BitVec.toNat_ofNat, Nat.mod_eq_of_lt fits]
  case bytes =>
    rw [exec_mld, thenDo, exec_mst_setMp s (slotValue_lt s slot)]
    exact ⟨_, rfl, fun _ => byteAt_setSlot_slotValue s slot wf slot'⟩
  case toMpint =>
    have fits := (s.wordAt w).isLt
    rw [exec_wst, thenDo, exec_mld_setSlot s fits wf]
    refine ⟨_, rfl, ?_⟩
    rw [mpAt_setMp_self, val_mpFromInt_signedMagnitude false fits]
    rfl

end Sys2Proof.Machine

/-! PROOFS. `NOP` (`46_system.md` R240): its one word, and the state it leaves as it is. -/

namespace Sys2Proof.Machine

/-- `NOP` has no operand, so its word is the zero word (R91, R240). -/
theorem encode_nop : encode .nop = 0x00000000#32 := by decide

theorem decode_eq_nop_iff (c : Word) : decode c = .ok .nop ↔ c = 0x00000000#32 := by
  constructor
  · intro decoded
    exact (encode_of_decode decoded).symm.trans encode_nop
  · rintro rfl
    exact encode_nop ▸ decodeOfEncodeGivesCommand .nop rfl

theorem exec_nop (s : State) : exec .nop s = .next s := rfl

/-- A faulted unit drops the zero word (R268), and an unfaulted one executes it as `NOP`. -/
theorem runCommand_zero (s : State) : runCommand 0x00000000#32 s = .next s := by
  have decoded := (decode_eq_nop_iff 0x00000000#32).2 rfl
  rcases runCommand_cases 0x00000000#32 s with ⟨-, dropped⟩ | ⟨-, ⟨e, illegal⟩, -⟩ | ⟨running, -⟩
  · exact dropped
  · rw [decoded] at illegal
    cases illegal
  · exact (runCommand_of_decode running decoded).trans (exec_nop s)

/-- Settles O27. -/
theorem nopChangesNothing : Obligations.NopChangesNothing :=
  ⟨(decode_eq_nop_iff _).2 rfl, fun c => (decode_eq_nop_iff c).1, exec_nop, runCommand_zero⟩

end Sys2Proof.Machine

/-! PROOFS. Faults and reset (`60_exceptions.md` R260 to R269, `70_reset_and_hazards.md` R301): which command takes which
fault, and what a step can do to a unit that is faulted. -/

namespace Sys2Proof.Machine

/-! ## The faults of the legal commands (R260, R264) -/

/-- A legal command has one of two causes to fault (R260). -/
theorem cause_of_faultRaised {i : Instr} {s : State} {f : FaultCause} (raised : faultRaised i s = some f) :
    f = .mpCapacity ∨ f = .narrowOverflow := by
  cases i
  case madd | msub =>
    obtain ⟨-, ⟨⟩⟩ := Option.ite_none_right_eq_some.1 raised
    exact .inl rfl
  case mst =>
    obtain ⟨-, ⟨⟩⟩ := Option.ite_none_right_eq_some.1 raised
    exact .inr rfl
  all_goals cases raised

/-- A legal command whose result does not fit takes its fault with its own word (R264). -/
theorem exec_of_faultRaised {i : Instr} {s : State} {f : FaultCause} (hw : i.wellFormed = true)
    (raised : faultRaised i s = some f) : exec i s = .next (s.takeFault f (encode i)) := by
  cases i
  case madd | msub | mst =>
    obtain ⟨large, ⟨⟩⟩ := Option.ite_none_right_eq_some.1 raised
    exact (whenLegal_legal hw s _).trans (if_pos large)
  all_goals cases raised

/-- A legal command that raises no fault leaves the fault record: of all a command can do, only the fault entry writes
it (R264). -/
theorem sameFaultRecord_of_not_raised {i : Instr} {s t : State} (hw : i.wellFormed = true) (clear : faultRaised i s = none)
    (h : exec i s = .next t) : SameFaultRecord s t := by
  cases exec_effect h with
  | slot k v =>
    obtain ⟨-, -, -, -, -, record, -⟩ := onlySlot_setSlot s k v
    exact record
  | fault f cause =>
    rcases cause with ⟨illegal, -⟩ | ⟨-, raised⟩
    · simp [hw] at illegal
    · simp [clear] at raised
  | _ => exact ⟨rfl, rfl, rfl, rfl⟩

/-- Settles O21: the fault entry is the one effect of a command that writes the fault record. -/
theorem faultsAreExactlyThoseListed : Obligations.FaultsAreExactlyThoseListed := by
  refine ⟨fun i s hw => ?legal, fun c s hf unmatched => ?illegal, rfl, rfl, rfl, rfl⟩
  case legal =>
    cases raised : faultRaised i s with
    | none =>
      obtain ⟨t, ht⟩ := exec_answers i s
      exact ⟨t, ht, sameFaultRecord_of_not_raised hw raised ht⟩
    | some f =>
      have entry := exec_of_faultRaised hw raised
      obtain rfl | rfl := cause_of_faultRaised raised
      · exact ⟨_, entry, recorded_takeFault s .mpCapacity _, onlyFaultRecord_takeFault s _ _⟩
      · exact ⟨_, entry, recorded_takeFault s .narrowOverflow _, onlyFaultRecord_takeFault s _ _⟩
  case illegal =>
    obtain ⟨e, hd⟩ := decode_error_of_no_hit unmatched
    exact ⟨_, runCommand_of_error hf hd, recorded_takeFault s .illegalCmd c, onlyFaultRecord_takeFault s _ c⟩

/-! ## What a step performs -/

/-- A step performs the host's next operation, or, if the next access is none or the list is empty, changes nothing but the
host's side. -/
theorem step_cases (s : State) :
    (∃ o rest, nextOperation s = some o ∧ step s = perform o (performing rest s)) ∨
      ∃ rest v, nextOperation s = none ∧ step s = .next { performing rest s with hostRead := v } := by
  cases hp : s.pending with
  | nil => exact .inr ⟨s.pending, s.hostRead, by simp [nextOperation, hp], step_idle hp⟩
  | cons x rest =>
    have operation : nextOperation s = operationOf x := by simp [nextOperation, hp]
    have access : step s = step (nextAccess x rest s) := by rw [nextAccess, ← hp]
    rw [operation, access]
    cases h : operationOf x with
    | some o => exact .inl ⟨o, rest, rfl, step_access_of_operation s rest h⟩
    | none =>
      cases x with
      | op o => cases h
      | windowWrite offset bytes v => exact .inr ⟨rest, none, rfl, step_stray_write s rest h⟩
      | windowRead offset bytes => exact .inr ⟨rest, some (.zero bytes), rfl, step_stray_read s rest h⟩

/-- Soft reset gives every piece of the unit's state its value of hard reset (R301). -/
theorem sameUnit_softReset (s : State) : SameUnit State.reset s.softReset :=
  ⟨sameWords_of_w rfl, rfl, sameMps_of_m rfl, sameBytes_of_sb rfl, ⟨rfl, rfl, rfl⟩, rfl, rfl, rfl, rfl⟩

theorem step_reset (s : State) (rest : List HostAccess) :
    step (nextAccess (.op .reset) rest s) = .next (performing rest s).softReset := rfl

/-! ## The faulted unit (R268, R269) -/

/-- A faulted unit drops every command write (R268). -/
theorem runCommand_of_fault {s : State} (hf : s.fault = true) (c : Word) : runCommand c s = .next s := if_pos hf

/-- All that a step of a faulted unit can do: reset it, write one slot byte, or leave the unit as it is (R268). -/
theorem step_faulted_cases {s t : State} (hf : s.fault = true) (ht : step s = .next t) :
    (nextOperation s = some .reset ∧ SameUnit State.reset t) ∨
      (∃ x b rest, nextOperation s = some (.writeSB x b) ∧ t = (performing rest s).setByte x.toNat b) ∨
      SameUnit s t := by
  rcases step_cases s with ⟨o, rest, operation, performed⟩ | ⟨rest, v, -, stray⟩
  · have answer := performed.symm.trans ht
    cases o with
    | reset =>
      obtain rfl := Host.Outcome.next.inj answer
      exact .inl ⟨operation, sameUnit_softReset _⟩
    | writeSB x b => exact .inr (.inl ⟨x, b, rest, operation, (Host.Outcome.next.inj answer).symm⟩)
    | cmd c =>
      obtain rfl := Host.Outcome.next.inj ((runCommand_of_fault (s := performing rest s) hf c).symm.trans answer)
      exact .inr (.inr (sameUnit_performing s rest none))
    | readSB | readCSR =>
      obtain rfl := Host.Outcome.next.inj answer
      exact .inr (.inr (sameUnit_performing s rest _))
  · obtain rfl := Host.Outcome.next.inj (stray.symm.trans ht)
    exact .inr (.inr (sameUnit_performing s rest v))

/-- Settles O19: with the reset excluded, `step_faulted_cases` leaves a byte write and a unit as it was. -/
theorem faultedUnitDropsCommands : Obligations.FaultedUnitDropsCommands := by
  refine ⟨fun s rest c hf => step_command.trans (runCommand_of_fault (s := performing rest s) hf c),
    fun s t hf ht noReset => ?_⟩
  rcases step_faulted_cases hf ht with ⟨reset, -⟩ | ⟨x, b, rest, operation, rfl⟩ |
    ⟨words, product, mps, bytes, status, record⟩
  · exact absurd reset noReset
  · refine ⟨⟨rfl, rfl, rfl, rfl⟩, sameWords_of_w rfl, rfl, sameMps_of_m rfl, ⟨rfl, rfl, rfl⟩, fun a changed => ?_⟩
    refine ⟨x, b, operation, ?_⟩
    by_contra other
    exact changed (byteAt_setByte_ne (performing rest s) b (Ne.symm other))
  · exact ⟨record, words, product, mps, status, fun a changed => absurd (bytes a) changed⟩

/-- Settles O20: of the three cases of `step_faulted_cases` only the reset touches the fault record. -/
theorem onlyResetClearsFault : Obligations.OnlyResetClearsFault := by
  intro s t hf ht
  rcases step_faulted_cases hf ht with ⟨reset, fresh⟩ | ⟨x, b, rest, -, rfl⟩ | ⟨-, -, -, -, -, record⟩
  · refine ⟨fun _ => ⟨reset, fresh⟩, fun still => ?_⟩
    obtain ⟨-, -, -, -, -, cleared, -⟩ := fresh
    simp [cleared] at still
  · exact ⟨fun ok => by simp [hf] at ok, fun _ => ⟨rfl, rfl, rfl, rfl⟩⟩
  · have kept := record.1
    exact ⟨fun ok => by simp [kept, hf] at ok, fun _ => record⟩

/-- Settles O16: a write to CTRL with bit 0 = 1 is the reset (log entry 9), and `onlyResetClearsFault` knows the way out. -/
theorem softResetLeavesResetState : Obligations.SoftResetLeavesResetState := by
  refine ⟨fun s rest => ⟨⟨_, step_reset s rest, sameUnit_softReset _⟩, fun v odd => ?_⟩, fun s t hf ht ok => ?_⟩
  · have ctrl : operationOf (.windowWrite 0x214 4 v) = some .reset := (writeOperation_ctrl v).trans (if_pos odd)
    exact ⟨_, (step_access_of_operation s rest ctrl).trans (step_reset s rest), sameUnit_softReset _⟩
  · obtain ⟨clearing, -⟩ := onlyResetClearsFault s t hf ht
    obtain ⟨reset, -⟩ := clearing ok
    exact reset

end Sys2Proof.Machine
